-- ==== Sys2Proof/Word.lean ====
section
/-! DEFINITION. The register widths of the block (00_scope.md R6, R8, R12) as bit-vector types, and the slot index. -/

namespace Sys2Proof

/-- One byte of an event word. -/
abbrev Byte := BitVec 8

/-- A note number, `NOTE_W = 8` bits unsigned (R12). -/
abbrev Note := BitVec 8

/-- A frequency in whole hertz, `FREQ_W = 32` bits unsigned (R12). -/
abbrev Hertz := BitVec 32

/-- An amplitude code: 32-bit two's complement with 28 fraction bits, Q4.28 (R8). Its number is `BitVec.toInt`. -/
abbrev Amp := BitVec 32

/-- An attack or decay counter, `CNT_W = 32` bits unsigned (R12). -/
abbrev Counter := BitVec 32

/-- The round-robin cursor's register, 4 bits (R12). -/
abbrev Cursor := BitVec 4

/-- The event word `evt_data[23:0]`, `EVT_W = 24` (30_encoding.md R71). -/
abbrev EventWord := BitVec 24

/-- A slot number, 0 to 9: `N_VOICES = 10` (R6). -/
abbrev Slot := Fin 10

end Sys2Proof
end

