-- ==== Sys2Proof/Config.lean ====
section
/-! DEFINITION. The OPEN parameters of a model instance (00_scope.md R7, R9, R10). They are constants of the instance
(10_state.md R30): State carries them in a field that no operation writes, so that every claim about a state is a claim
for every value of them. Which values are legal (R11) is `Machine.legal` in Machine/Ops.lean. -/

namespace Sys2Proof

/-- A configuration `(SR, DECAY_STEP, RELEASE_STEP)`, legal or not. -/
structure Config where
  /-- `SR`, samples per second (R7). -/
  sampleRate : Nat
  /-- `DECAY_STEP`, a Q4.28 code (R9). -/
  decayStep : Amp
  /-- `RELEASE_STEP`, a Q4.28 code (R10). -/
  releaseStep : Amp
  deriving DecidableEq, Repr

/-- DESIGN CHOICE (log 2, unsafe): the configuration `State.reset` carries. The sample rate is the reference value R7
names; the spec gives no decrements, and these two are the ones of its test configuration T2 (95_test_vectors.md).
No statement rests on these values. -/
def Config.reference : Config :=
  { sampleRate := 44100, decayStep := 0x4000, releaseStep := 0x10000 }

end Sys2Proof
end

