-- ==== Sys2Proof/Syntax.lean ====
section
/-! DEFINITION. What the host can present to the block: the five operations of 30_encoding.md R70 (one constructor of
`Instr` per row of the opcode table), the inputs of one rising edge (R76), and the lines of the assembler syntax
(R80, R81). -/

namespace Sys2Proof

/-- The five operations (30_encoding.md R70). The channel, the velocity and the bits of an ignored word are kept, although
no meaning reads them (R73, R74, R94), so that encoding an operation gives back every bit it was decoded from. -/
inductive Instr where
  /-- NOTE_ON (R92): event word `{0x9, chan, note, vel}`. -/
  | noteOn (chan : BitVec 4) (note : Note) (vel : Byte)
  /-- NOTE_OFF (R93): event word `{0x8, chan, note, vel}`. -/
  | noteOff (chan : BitVec 4) (note : Note) (vel : Byte)
  /-- EVT_IGNORED (R94): event word `{kind, rest}`, `kind` neither 0x9 nor 0x8. -/
  | evtIgnored (kind : BitVec 4) (rest : BitVec 20)
  /-- TICK (41_envelope_tick.md R112): the `tick` strobe. -/
  | tick
  /-- RESET (70_reset_and_hazards.md R150): the `rst` strobe. -/
  | reset
  deriving DecidableEq, Repr

/-- The inputs sampled at one rising edge of `clk` (30_encoding.md R76). An input left out is 0. -/
structure Edge where
  rst : Bool := false
  evtValid : Bool := false
  evtData : EventWord := 0
  tick : Bool := false
  deriving DecidableEq, Repr

/-- A line of an operation sequence (30_encoding.md R80), with the pseudo-operations of R81. -/
inductive Line where
  | reset
  | evt (w : EventWord)
  | noteOn (chan : BitVec 4) (note : Note) (vel : Byte)
  | noteOff (chan : BitVec 4) (note : Note) (vel : Byte)
  | tick
  | evtTick (w : EventWord)
  /-- Pseudo-operation `NOTE_ON note` (R81). -/
  | pseudoNoteOn (note : Note)
  /-- Pseudo-operation `NOTE_OFF note` (R81). -/
  | pseudoNoteOff (note : Note)
  /-- Pseudo-operation `TICKS k` (R81). -/
  | ticks (k : Nat)
  deriving DecidableEq, Repr

end Sys2Proof
end

