-- ==== Sys2Proof/WellFormed.lean ====
section
/-! DEFINITION. Which terms of `Instr` stand for an operation the block can be presented with: every one, but for an
EVT_IGNORED whose kind nibble is that of a note-on or a note-off (30_encoding.md R72, R78). -/

namespace Sys2Proof

/-- The kind nibble of an EVT_IGNORED is one of 0x0 to 0x7 and 0xA to 0xF (30_encoding.md R78). -/
def ignoredKind (kind : BitVec 4) : Bool := kind != 0x9 && kind != 0x8

/-- Well-formed instructions: those some event word or strobe encodes. -/
def Instr.wellFormed : Instr → Bool
  | .noteOn _ _ _ => true
  | .noteOff _ _ _ => true
  | .evtIgnored kind _ => ignoredKind kind
  | .tick => true
  | .reset => true

end Sys2Proof
end

