-- ==== Sys2Proof/Decode.lean ====
section
/-! DEFINITION. Decoding: the fields of the event word (30_encoding.md R71), the total decoder of event words (R72), of
byte sequences (R51, R79) and of the inputs of an edge (R70, R77); then the encoder (R70, R71, R80), and the reading of
the opcode table's words the host asks for. -/

namespace Sys2Proof

/-- `kind`, bits `[23:20]` (R71). -/
def eventKind (w : EventWord) : BitVec 4 := w.extractLsb' 20 4

/-- `chan`, bits `[19:16]` (R71). -/
def eventChan (w : EventWord) : BitVec 4 := w.extractLsb' 16 4

/-- `d1`, bits `[15:8]`: the note operand, all 8 bits of it (R71, R75). -/
def eventNote (w : EventWord) : Note := w.extractLsb' 8 8

/-- `d2`, bits `[7:0]` (R71). -/
def eventVelocity (w : EventWord) : Byte := w.extractLsb' 0 8

/-- Bits `[19:0]`, which an ignored word's operation does not read (R94). -/
def eventRest (w : EventWord) : BitVec 20 := w.extractLsb' 0 20

/-- `decode(w)` of R72: total, by the kind nibble alone (R73, R74, R78). -/
def decodeEvent (w : EventWord) : Instr :=
  if eventKind w = 0x9 then .noteOn (eventChan w) (eventNote w) (eventVelocity w)
  else if eventKind w = 0x8 then .noteOff (eventChan w) (eventNote w) (eventVelocity w)
  else .evtIgnored (eventKind w) (eventRest w)

/-- Why a byte sequence holds no event word. -/
inductive DecodeReject where
  /-- Fewer than three bytes are left: an event is always one complete 24-bit word, with no running status and no
  two-byte form (R79). Safe: nothing is executed. -/
  | incompleteWord (bytes : Nat)
  deriving DecidableEq, Repr

/-- The event at the head of a byte sequence, status byte first (R51), and the bytes after it. -/
def decodeBytes : List Byte → Except DecodeReject (Instr × List Byte)
  | status :: d1 :: d2 :: rest => .ok (decodeEvent (status ++ d1 ++ d2), rest)
  | bytes => .error (.incompleteWord bytes.length)

/-- The operations the inputs of one edge present, in the order they take effect (R70, R77): `rst` alone, else the event
and then the tick. An edge whose strobes are all 0 presents none. -/
def decodeEdge (e : Edge) : List Instr :=
  if e.rst then [.reset]
  else (if e.evtValid then [decodeEvent e.evtData] else []) ++ (if e.tick then [.tick] else [])

/-- The edge that presents one event word (R80, `EVT w`). -/
def evtEdge (w : EventWord) : Edge := { evtValid := true, evtData := w }

/-- The edge that presents one tick (R80, `TICK`). -/
def tickEdge : Edge := { tick := true }

/-- The edge that presents an event word and a tick (R80, `EVT w + TICK`). -/
def evtTickEdge (w : EventWord) : Edge := { evtValid := true, evtData := w, tick := true }

/-- The edge that presents a reset (R80, `RESET`). -/
def rstEdge : Edge := { rst := true }

/-- A channel message as an event word, `{status, data1, data2}` with status `{kind, chan}` (R71). -/
def messageWord (kind chan : BitVec 4) (d1 d2 : Byte) : EventWord := kind ++ chan ++ d1 ++ d2

/-- The event word of an operation that has one: TICK and RESET have none (opcode map of 30_encoding.md section 4). -/
def encodeEvent : Instr → Option EventWord
  | .noteOn chan note vel => some (messageWord 0x9 chan note vel)
  | .noteOff chan note vel => some (messageWord 0x8 chan note vel)
  | .evtIgnored kind rest => some (kind ++ rest)
  | .tick => none
  | .reset => none

/-- The inputs that present one operation, all others 0 (R70, R80). -/
def encode : Instr → Edge
  | .noteOn chan note vel => evtEdge (messageWord 0x9 chan note vel)
  | .noteOff chan note vel => evtEdge (messageWord 0x8 chan note vel)
  | .evtIgnored kind rest => evtEdge (kind ++ rest)
  | .tick => tickEdge
  | .reset => rstEdge

/-- The edges a line of an operation sequence stands for (R80, R81). -/
def lineEdges : Line → List Edge
  | .reset => [rstEdge]
  | .evt w => [evtEdge w]
  | .noteOn chan note vel => [evtEdge (messageWord 0x9 chan note vel)]
  | .noteOff chan note vel => [evtEdge (messageWord 0x8 chan note vel)]
  | .tick => [tickEdge]
  | .evtTick w => [evtTickEdge w]
  | .pseudoNoteOn note => [evtEdge (messageWord 0x9 0 note 0x7F)]
  | .pseudoNoteOff note => [evtEdge (messageWord 0x8 0 note 0x00)]
  | .ticks k => List.replicate k tickEdge

/-- DESIGN CHOICE (log 6): the edge a word of the opcode table stands for. A word below 2^24 is an event word. The table
gives the strobe rows TICK and RESET no bits; the model numbers them 24 (`tick`) and 25 (`rst`). No bits, no strobe. -/
def tableWordEdge (nbits w : Nat) : Edge :=
  if nbits = 0 then {}
  else if w < 2 ^ 24 then evtEdge (BitVec.ofNat 24 w)
  else { tick := w.testBit 24, rst := w.testBit 25 }

/-- The one operation a word of the opcode table decodes to, if it presents exactly one. -/
def decodeTableWord (nbits w : Nat) : Option Instr :=
  match decodeEdge (tableWordEdge nbits w) with
  | [i] => some i
  | _ => none

end Sys2Proof
end

