-- ==== Sys2Proof/Machine/State.lean ====
section
/-! DEFINITION. The state of the block (10_state.md), its value after RESET (R35), and why a step can stop. -/

namespace Sys2Proof.Machine

/-- One voice slot: exactly the fields of 10_state.md R21. -/
structure Voice where
  /-- Note number of the event that last allocated the slot (R27). -/
  note : Note
  /-- Frequency in whole hertz (R28). -/
  freq : Hertz
  /-- Current amplitude, a Q4.28 code (R22). -/
  amp : Amp
  /-- Attack counter (R23). -/
  acnt : Counter
  /-- Reserved decay counter, always 0 (R24). -/
  dcnt : Counter
  /-- The slot is sounding (R25). -/
  active : Bool
  /-- A matching note-off has arrived since the slot was last allocated (R26). -/
  released : Bool
  deriving DecidableEq, Repr

/-- A slot after RESET (R35). -/
def Voice.reset : Voice :=
  { note := 0, freq := 0, amp := 0, acnt := 0, dcnt := 0, active := false, released := false }

/-- The whole state: the spec's slot array and cursor (R20, R29), and three fields of the model's own. -/
structure State where
  /-- The voice slots `v[0]` to `v[9]` (R20). -/
  voices : Vector Voice 10
  /-- The round-robin cursor `rr` (R29). -/
  rr : Cursor
  /-- The model's own: the instance constants SR, DECAY_STEP, RELEASE_STEP (R30, log 1). No operation writes them. -/
  cfg : Config
  /-- The model's own: a RESET has been applied since power-on (70_reset_and_hazards.md R151, log 3). -/
  everReset : Bool
  /-- The model's own: the inputs of the edges the host has still to present, the next one first (60_exceptions.md R138,
  log 4). -/
  edges : List Edge
  deriving DecidableEq, Repr

/-- The state after RESET of an instance with configuration `c` (R35), with the edges its host presents from then on. -/
def State.resetWith (c : Config) (edges : List Edge) : State :=
  { voices := Vector.replicate 10 Voice.reset, rr := 0, cfg := c, everReset := true, edges := edges }

/-- The machine right after reset: R35, with the configuration of log 2 and no edge presented yet (log 4). -/
def State.reset : State := State.resetWith Config.reference []

/-- The faults a step can stop with: NONE. No operation raises an exception (60_exceptions.md R130, R135). -/
inductive Fault where
  deriving DecidableEq, Repr

/-- Why the model declines to give a step a meaning: the three cases of 60_exceptions.md R131, and the host's own case.
None of them is a hardware exception. -/
inductive Refusal where
  /-- An instruction without a meaning yet, rejected by name in `exec`. No arm raises it. Safe. -/
  | notModelled (mnemonic : String)
  /-- The configuration is illegal (00_scope.md R11; R131, first case). Raised by every operation and by an edge that
  presents none (DEDUCED, log 8). Safe. -/
  | illegalConfiguration
  /-- An operation other than RESET before the first RESET (R151; R131, second case). Safe. -/
  | beforeFirstReset
  /-- The state fails the checks of 10_state.md R36, so no run from RESET reaches it (R131, third case,
  as log 5 reads it: DEDUCED). Raised by every
  operation but RESET, and not by an edge that presents none (DEDUCED, log 5). Safe. -/
  | unreachableState
  deriving DecidableEq, Repr

end Sys2Proof.Machine
end

