-- ==== Sys2Proof/Machine/Operands.lean ====
section
/-! DEFINITION. The values operations compute from their operands and the configuration: the note-to-frequency map
(40_voice_events.md R91), the attack amplitude (41_envelope_tick.md R111) and the decay decrement (R113). Arithmetic is on
mathematical integers and is narrowed once, at the assignment (00_scope.md R15, R17). -/

namespace Sys2Proof.Machine

/-- FREQ(n) for n in 0..127, rows of eight (the ROM of 40_voice_events.md R91). -/
def freqTableLow : List Nat :=
  ([8, 8, 9, 9, 10, 10, 11, 12] ++
   [12, 13, 14, 15, 16, 17, 18, 19] ++
   [20, 21, 23, 24, 25, 27, 29, 30] ++
   [32, 34, 36, 38, 41, 43, 46, 48] ++
   [51, 55, 58, 61, 65, 69, 73, 77] ++
   [82, 87, 92, 97, 103, 110, 116, 123] ++
   [130, 138, 146, 155, 164, 174, 184, 195] ++
   [207, 220, 233, 246, 261, 277, 293, 311] ++
   [329, 349, 369, 391, 415, 440, 466, 493] ++
   [523, 554, 587, 622, 659, 698, 739, 783] ++
   [830, 880, 932, 987, 1046, 1108, 1174, 1244] ++
   [1318, 1396, 1479, 1567, 1661, 1760, 1864, 1975] ++
   [2093, 2217, 2349, 2489, 2637, 2793, 2959, 3135] ++
   [3322, 3520, 3729, 3951, 4186, 4434, 4698, 4978] ++
   [5274, 5587, 5919, 6271, 6644, 7040, 7458, 7902] ++
   [8372, 8869, 9397, 9956, 10548, 11175, 11839, 12543])

/-- FREQ(n) for n in 128..255, rows of eight (the ROM of 40_voice_events.md R91). -/
def freqTableHigh : List Nat :=
  ([13289, 14080, 14917, 15804, 16744, 17739, 18794, 19912] ++
   [21096, 22350, 23679, 25087, 26579, 28160, 29834, 31608] ++
   [33488, 35479, 37589, 39824, 42192, 44701, 47359, 50175] ++
   [53159, 56320, 59668, 63217, 66976, 70958, 75178, 79648] ++
   [84384, 89402, 94718, 100350, 106318, 112640, 119337, 126434] ++
   [133952, 141917, 150356, 159297, 168769, 178804, 189437, 200701] ++
   [212636, 225280, 238675, 252868, 267904, 283835, 300712, 318594] ++
   [337538, 357609, 378874, 401403, 425272, 450560, 477351, 505736] ++
   [535809, 567670, 601425, 637188, 675077, 715219, 757748, 802806] ++
   [850544, 901120, 954703, 1011473, 1071618, 1135340, 1202850, 1274376] ++
   [1350154, 1430438, 1515497, 1605613, 1701088, 1802240, 1909406, 2022946] ++
   [2143236, 2270680, 2405701, 2548752, 2700308, 2860877, 3030994, 3211226] ++
   [3402176, 3604480, 3818813, 4045892, 4286473, 4541360, 4811403, 5097504] ++
   [5400617, 5721755, 6061988, 6422453, 6804352, 7208960, 7637627, 8091784] ++
   [8572946, 9082720, 9622807, 10195009, 10801235, 11443510, 12123977, 12844906] ++
   [13608704, 14417920, 15275254, 16183568, 17145893, 18165440, 19245614, 20390018])

/-- `FREQ(n)` in whole hertz (R91), read from the ROM. -/
def freqHertz (n : Note) : Nat := (freqTableLow ++ freqTableHigh).getD n.toNat 0

/-- `FREQ(n)` as the 32-bit `freq` field holds it (R91, R28). -/
def freqOf (n : Note) : Hertz := BitVec.ofNat 32 (freqHertz n)

/-- `ATT(c) = floor(20 * c * 2^28 / SR)`, a Q4.28 code (41_envelope_tick.md R111). -/
def attackCode (c : Config) (count : Nat) : Nat := 2 ^ 28 * (20 * count) / c.sampleRate

/-- `A(SR) = ceil(SR / 10)`, the attack ticks of an unreleased voice (R110). -/
def attackTicks (c : Config) : Nat := (c.sampleRate + 9) / 10

/-- What one TICK in the decay branch subtracts: DECAY_STEP, and RELEASE_STEP too from a released voice (R113). -/
def decrement (c : Config) (released : Bool) : Int :=
  c.decayStep.toInt + if released then c.releaseStep.toInt else 0

end Sys2Proof.Machine
end

