-- ==== Sys2Proof/Machine/Flags.lean ====
section
/-! DEFINITION. The tests on and the writes of the per-slot flags `active` and `released`, the block's only flags
(10_state.md R25, R26, R31). -/

namespace Sys2Proof.Machine

/-- `in_attack` (41_envelope_tick.md R110): inside the attack window and not released. -/
def inAttack (c : Config) (x : Voice) : Bool := decide (10 * x.acnt.toNat < c.sampleRate) && !x.released

/-- The `active` flag the decay branch leaves, from the new amplitude: cleared when it is zero or below (R114). -/
def activeAfterDecay (newAmp : Int) : Bool := decide (0 < newAmp)

/-- The `released` flag a NOTE_OFF of note `n` leaves: set on a match, else as it was (40_voice_events.md R93). -/
def releasedAfterOff (n : Note) (x : Voice) : Bool := x.released || x.note == n

end Sys2Proof.Machine
end

