-- ==== Sys2Proof/Machine/Ops.lean ====
section
/-! DEFINITION. The operations every meaning is built from: reading and writing the slot array (20_memory.md R50), slot
selection (40_voice_events.md R90), and the three checks after which a model refuses (60_exceptions.md R131). The block has
no memory (R50) and takes no exception (R130, R135), so there is no operation for either. -/

namespace Sys2Proof.Machine

/-- Read slot `i`. -/
def State.voice (s : State) (i : Slot) : Voice := s.voices[i.val]

/-- Write slot `i`; every other slot is unchanged. -/
def State.setVoice (s : State) (i : Slot) (x : Voice) : State := { s with voices := s.voices.set i.val x }

/-- Write every slot from its own value. -/
def State.mapVoices (s : State) (f : Voice → Voice) : State :=
  { s with voices := ⟨(s.voices.toList.map f).toArray, by simp⟩ }

/-- Write the cursor. -/
def State.setCursor (s : State) (r : Cursor) : State := { s with rr := r }

/-- The slots in index order (R90). -/
def slots : List Slot := [0, 1, 2, 3, 4, 5, 6, 7, 8, 9]

/-- The lowest-indexed slot with `released = 1` (R90). -/
def lowestReleased (s : State) : Option Slot := slots.find? fun i => (s.voice i).released

/-- The slot the cursor names. The cursor holds 0 to 9 (R29), and there the remainder is the cursor itself. -/
def cursorSlot (r : Cursor) : Slot := ⟨r.toNat % 10, Nat.mod_lt _ (by decide)⟩

/-- `(rr + 1) mod 10` (R29, R90). -/
def nextCursor (r : Cursor) : Cursor := BitVec.ofNat 4 ((r.toNat + 1) % 10)

/-- `select(state)`: the slot a NOTE_ON takes, and the new cursor (R90). -/
def select (s : State) : Slot × Cursor :=
  match lowestReleased s with
  | some i => (i, s.rr)
  | none => (cursorSlot s.rr, nextCursor s.rr)

/-- The legal configurations (00_scope.md R11). -/
def legal (c : Config) : Bool :=
  decide (1 ≤ c.sampleRate ∧ c.sampleRate ≤ 2 ^ 24 ∧ 1 ≤ c.decayStep.toInt ∧
    c.decayStep.toInt < c.releaseStep.toInt ∧ c.decayStep.toInt + c.releaseStep.toInt ≤ 2 ^ 30)

/-- What 10_state.md R36 lists for one slot. -/
abbrev VoiceOk (c : Config) (x : Voice) : Prop :=
  x.dcnt = 0 ∧ x.acnt.toNat ≤ attackTicks c ∧
    (x.active = true → 0 ≤ x.amp.toInt ∧ x.amp.toInt ≤ 2 ^ 29 - 1) ∧ (x.active = false → x.amp.toInt ≤ 0)

/-- The checks of 10_state.md R36: a state that fails one is not reachable from RESET. (Its last line,
`o_active_count <= 10`, holds of ten slots whatever they are.) DEDUCED (log 5): R131's third case is decided by this list. -/
def consistent (s : State) : Bool := decide (s.rr.toNat ≤ 9 ∧ ∀ i : Slot, VoiceOk s.cfg (s.voice i))

/-- Go on to `t`, refusing an illegal configuration (R131, first case). DEDUCED (log 8): RESET and an
edge that presents no operation refuse it too. -/
def whenConfigured (s t : State) : Host.Outcome State Fault Refusal :=
  if legal s.cfg then .next t else .refused .illegalConfiguration

/-- Go on to `t`, refusing in each of the three cases of R131. DEDUCED (log 8): where more than one holds, the
configuration is named first, then the missing RESET. -/
def whenReady (s t : State) : Host.Outcome State Fault Refusal :=
  if legal s.cfg = false then .refused .illegalConfiguration
  else if s.everReset = false then .refused .beforeFirstReset
  else if consistent s = false then .refused .unreachableState
  else .next t

/-- Sequence two parts of one edge: the second sees the first one's state (30_encoding.md R77). -/
def andThen (o : Host.Outcome State Fault Refusal) (k : State → Host.Outcome State Fault Refusal) :
    Host.Outcome State Fault Refusal :=
  match o with
  | .next s => k s
  | .fault r => .fault r
  | .refused r => .refused r

end Sys2Proof.Machine
end

