-- ==== Sys2Proof/Machine/EnvelopeTick.lean ====
section
/-! DEFINITION. The envelope update (41_envelope_tick.md). -/

namespace Sys2Proof.Machine

/-- The attack branch of TICK on one slot (R112): the amplitude of the counter before its increment (R111). -/
def attackVoice (c : Config) (x : Voice) : Voice :=
  { x with amp := BitVec.ofNat 32 (attackCode c x.acnt.toNat), acnt := BitVec.ofNat 32 (x.acnt.toNat + 1) }

/-- The decay branch of TICK on one slot (R113), deactivating in the same TICK and without a clamp (R114). -/
def decayVoice (c : Config) (x : Voice) : Voice :=
  let newAmp := x.amp.toInt - decrement c x.released
  { x with amp := BitVec.ofInt 32 newAmp, active := activeAfterDecay newAmp }

/-- TICK on one slot (R112): an inactive slot is unchanged (R115). -/
def tickVoice (c : Config) (x : Voice) : Voice :=
  if x.active = false then x
  else if inAttack c x then attackVoice c x
  else decayVoice c x

/-- TICK (R112): every slot from its own fields; the cursor is not written. -/
def execTick (s : State) : Host.Outcome State Fault Refusal := whenReady s (s.mapVoices (tickVoice s.cfg))

end Sys2Proof.Machine
end

