-- ==== Sys2Proof/Machine/Reset.lean ====
section
/-! DEFINITION. RESET (70_reset_and_hazards.md). -/

namespace Sys2Proof.Machine

/-- RESET (R150): every field of every slot and the cursor to the values of R35, from any state whatever, the state before
the first RESET included (R151). The configuration is refused if illegal (R131; DEDUCED, log 8) and is otherwise kept (R152). -/
def execReset (s : State) : Host.Outcome State Fault Refusal := whenConfigured s (State.resetWith s.cfg s.edges)

end Sys2Proof.Machine
end

