-- ==== Sys2Proof/Machine/VoiceEvents.lean ====
section
/-! DEFINITION. The three operations an event word decodes to (40_voice_events.md). -/

namespace Sys2Proof.Machine

/-- What NOTE_ON writes to the slot it takes (R92). -/
def allocated (n : Note) : Voice :=
  { note := n, freq := freqOf n, amp := 0, acnt := 0, dcnt := 0, active := true, released := false }

/-- NOTE_ON (R92): allocate the selected slot to the note and start its envelope. -/
def execNoteOn (n : Note) (s : State) : Host.Outcome State Fault Refusal :=
  whenReady s ((s.setVoice (select s).1 (allocated n)).setCursor (select s).2)

/-- What NOTE_OFF writes to one slot (R93): `released` on a match, whatever `active` is. -/
def releaseVoice (n : Note) (x : Voice) : Voice := { x with released := releasedAfterOff n x }

/-- NOTE_OFF (R93): mark every slot holding the note as released. -/
def execNoteOff (n : Note) (s : State) : Host.Outcome State Fault Refusal :=
  whenReady s (s.mapVoices (releaseVoice n))

/-- EVT_IGNORED (R94): the state is unchanged. -/
def execEvtIgnored (s : State) : Host.Outcome State Fault Refusal := whenReady s s

end Sys2Proof.Machine
end

