-- ==== Sys2Proof/Machine/Dispatch.lean ====
section
/-! DEFINITION. One arm per operation (30_encoding.md R70). -/

namespace Sys2Proof.Machine

/-- The effect of one operation. -/
def exec (i : Instr) (s : State) : Host.Outcome State Fault Refusal :=
  match i with
  | .noteOn _ note _ => Sys2Proof.Machine.execNoteOn note s
  | .noteOff _ note _ => Sys2Proof.Machine.execNoteOff note s
  | .evtIgnored _ _ => Sys2Proof.Machine.execEvtIgnored s
  | .tick => Sys2Proof.Machine.execTick s
  | .reset => Sys2Proof.Machine.execReset s

end Sys2Proof.Machine
end

