-- ==== Sys2Proof/Machine/Edges.lean ====
section
/-! DEFINITION. One rising edge (30_encoding.md R77): the operations its inputs present, one after the other, as one step. -/

namespace Sys2Proof.Machine

/-- Operations in order, each on the state the one before it left (20_memory.md R56). -/
def runOps : List Instr → State → Host.Outcome State Fault Refusal
  | [], s => .next s
  | i :: is, s => andThen (exec i s) (runOps is)

/-- An edge that presents no operation changes nothing (R77); an illegal configuration is refused all the same (R131;
DEDUCED, log 8). The spec does not say at which edge a state that is not reachable is refused: in this model an edge that
presents no operation goes on from it, unchanged, and the next operation but RESET is refused (DEDUCED, log 5). -/
def idle (s : State) : Host.Outcome State Fault Refusal := whenConfigured s s

/-- `step` of R77, for the inputs of one edge: `rst` alone, else the event and then the tick. -/
def runEdge (e : Edge) (s : State) : Host.Outcome State Fault Refusal :=
  match decodeEdge e with
  | [] => idle s
  | i :: is => runOps (i :: is) s

/-- Take the next edge the host presents. DESIGN CHOICE (log 4): a host with no further edge presents idle ones. -/
def runNextEdge (s : State) : Host.Outcome State Fault Refusal :=
  match s.edges with
  | [] => idle s
  | e :: rest => runEdge e { s with edges := rest }

/-- The host presents this edge before the ones already scheduled. -/
def present (e : Edge) (s : State) : State := { s with edges := e :: s.edges }

end Sys2Proof.Machine
end

