-- ==== Sys2Proof/Machine/Step.lean ====
section
/-! DEFINITION. The step: one rising edge of `clk` (30_encoding.md R76, R77). -/

namespace Sys2Proof.Machine

/-- One rising edge: the next one the host presents. -/
def step (s : State) : Host.Outcome State Fault Refusal := runNextEdge s

/-- `s` with an operation presented at the very next edge (log 4, log 6). -/
def State.withFetchWord (s : State) (nbits w : Nat) : State := present (tableWordEdge nbits w) s

end Sys2Proof.Machine
end

