-- ==== Sys2Proof/Machine/Outputs.lean ====
section
/-! DEFINITION. The output ports (10_state.md R33): a view of the state, with no storage of its own. The cursor and the
reserved counters drive no port (R34). -/

namespace Sys2Proof.Machine

/-- The ports of one slot (R33). -/
structure SlotPorts where
  note : Note
  freq : Hertz
  amp : Amp
  acnt : Counter
  active : Bool
  released : Bool
  deriving DecidableEq, Repr

/-- All the output ports (R33). -/
structure Outputs where
  slot : Vector SlotPorts 10
  activeCount : BitVec 4
  deriving DecidableEq, Repr

/-- The ports a slot drives (R33). -/
def slotPorts (x : Voice) : SlotPorts :=
  { note := x.note, freq := x.freq, amp := x.amp, acnt := x.acnt, active := x.active, released := x.released }

/-- The ports as the state drives them (R33). -/
def outputs (s : State) : Outputs :=
  { slot := ⟨(s.voices.toList.map slotPorts).toArray, by simp⟩
    activeCount := BitVec.ofNat 4 (s.voices.toList.countP fun x => x.active) }

end Sys2Proof.Machine
end

