-- ==== Sys2Proof/Safety.lean ====
section
/-! DEFINITION. The terms claims are stated in: the states an operation runs from, runs of edges, the states RESET leads
to, the invariant of the envelope, and what a dutiful host presents (70_reset_and_hazards.md R152, R153). -/

namespace Sys2Proof.Machine

/-- A legal configuration, after a RESET, and a state that passes the checks of 10_state.md R36: where R131 lets a model
run every operation. -/
abbrev Ready (s : State) : Prop := legal s.cfg = true ∧ s.everReset = true ∧ consistent s = true

/-- The model's own fields are as they were. -/
abbrev KeepsOwn (s t : State) : Prop := t.cfg = s.cfg ∧ t.everReset = s.everReset ∧ t.edges = s.edges

/-- `k` edges, stopping at the first that does not answer a next state. -/
def steps : Nat → State → Host.Outcome State Fault Refusal
  | 0, s => .next s
  | k + 1, s => andThen (step s) (steps k)

/-- The states some run from RESET under a legal configuration reaches, whatever the host presents (10_state.md R36). -/
inductive Reachable : State → Prop where
  | reset (c : Config) (edges : List Edge) : legal c = true → Reachable (State.resetWith c edges)
  | step (s t : State) : Reachable s → Sys2Proof.Machine.step s = .next t → Reachable t

/-- What the rules fix about one slot beyond R36. -/
structure EnvelopeOk (c : Config) (x : Voice) : Prop where
  /-- The lower bound of 10_state.md R22. -/
  lower : -(c.decayStep.toInt + c.releaseStep.toInt) ≤ x.amp.toInt
  /-- Either never allocated since RESET (R35), or `freq` holds FREQ(note) (R28). -/
  origin : (x.note = 0 ∧ x.freq = 0 ∧ x.amp = 0 ∧ x.acnt = 0 ∧ x.active = false) ∨ x.freq = freqOf x.note
  /-- Inside the attack window an unreleased voice is on the ramp, one tick behind its counter (41_envelope_tick.md
  R111). -/
  ramp : x.active = true → x.released = false → 10 * x.acnt.toNat < c.sampleRate →
    x.amp.toInt = attackCode c (x.acnt.toNat - 1)
  /-- An unreleased voice is deactivated only past its attack window (R110, R114). -/
  done : x.active = false → x.released = false → x.freq = 0 ∨ c.sampleRate ≤ 10 * x.acnt.toNat

/-- The invariant of the block: R36, and `EnvelopeOk` of every slot. -/
def EnvelopeInv (s : State) : Prop := Ready s ∧ ∀ i : Slot, EnvelopeOk s.cfg (s.voice i)

/-- One output sample period of a dutiful host (R153): its events in capture order, and whether the TICK shares the edge
of the last of them. -/
structure Period where
  events : List EventWord
  shared : Bool
  deriving DecidableEq, Repr

/-- The edges of a period: one event per edge, then exactly one TICK, which may share the last event's edge (R153). -/
def periodEdges : List EventWord → Bool → List Edge
  | [], _ => [tickEdge]
  | [w], true => [evtTickEdge w]
  | w :: ws, shared => evtEdge w :: periodEdges ws shared

/-- The operations a period stands for: its events, then one TICK (R153). -/
def periodOps (p : Period) : List Instr := p.events.map decodeEvent ++ [.tick]

/-- What a dutiful host presents from power-on (R152): `rst` for at least one edge (`holds` more), then sample periods. -/
def sessionEdges (holds : Nat) (periods : List Period) : List Edge :=
  List.replicate (holds + 1) rstEdge ++ periods.flatMap fun p => periodEdges p.events p.shared

end Sys2Proof.Machine
end

