-- ==== Sys2Proof/Certificates/Slice0/Obligations.lean ====
section
/-! DEFINITION. The statements for the provers. Each docstring names the place of spec/ it formalises; where that place is
one of the spec's own decisions, the decision is named (log 7). Every statement holds for every configuration: `cfg` is a
field of the state, and no statement rests on the values of `State.reset`'s (log 1, log 2). -/

open Sys2Proof Sys2Proof.Machine

/-! ### Encoding -/

/-- 30_encoding.md sections 1, 2 and 4: what presents a well-formed operation presents exactly it, every operand bit
included. -/
def Obligations.DecodeEncodeRoundTrip : Prop :=
  ∀ i : Instr, i.wellFormed = true → decodeEdge (encode i) = [i]

/-- 30_encoding.md R72 (total) and R71 (packing, decision D3): every event word decodes to a well-formed operation, and
encoding that operation presents the same 24 bits again. -/
def Obligations.EncodeDecodeEventWord : Prop :=
  ∀ w : EventWord, (decodeEvent w).wellFormed = true ∧ encode (decodeEvent w) = evtEdge w ∧
    encodeEvent (decodeEvent w) = some w

/-- 30_encoding.md R71 and R72 (decisions D3, D4), by arithmetic on the word as a number: the kind nibble alone chooses
the operation, and each field is read from its own bits. -/
def Obligations.DecodeReadsEachFieldFromItsBits : Prop :=
  ∀ w : EventWord,
    let kind := w.toNat / 2 ^ 20
    let chan := BitVec.ofNat 4 (w.toNat / 2 ^ 16 % 2 ^ 4)
    let d1 := BitVec.ofNat 8 (w.toNat / 2 ^ 8 % 2 ^ 8)
    let d2 := BitVec.ofNat 8 (w.toNat % 2 ^ 8)
    (kind = 9 → decodeEvent w = .noteOn chan d1 d2) ∧
    (kind = 8 → decodeEvent w = .noteOff chan d1 d2) ∧
    (kind ≠ 9 → kind ≠ 8 →
      decodeEvent w = .evtIgnored (BitVec.ofNat 4 kind) (BitVec.ofNat 20 (w.toNat % 2 ^ 20)))

/-- Words of 95_test_vectors.md V1, one for each event operation and each corner of the decoder. -/
def Obligations.DecodeOfWrittenOutWords : Prop :=
  decodeEvent 0x90457F = .noteOn 0 69 0x7F ∧ decodeEvent 0x9F3C00 = .noteOn 15 60 0 ∧
  decodeEvent 0x90FF40 = .noteOn 0 255 0x40 ∧ decodeEvent 0x80457F = .noteOff 0 69 0x7F ∧
  decodeEvent 0x8A0000 = .noteOff 10 0 0 ∧ decodeEvent 0xB07B00 = .evtIgnored 0xB 0x07B00 ∧
  decodeEvent 0x000000 = .evtIgnored 0 0 ∧ decodeEvent 0x7F3C7F = .evtIgnored 7 0xF3C7F

/-- The MODEL'S choice (log 9, DESIGN CHOICE): a decoder of byte sequences, three to an event, that rejects fewer than three
by name. The spec has none: the host assembles complete words (30_encoding.md section 3). What is the spec's is the order of
the bytes in the word, status first (20_memory.md section 2, decision D3), and that no event is shorter than one word. -/
def Obligations.EventBytesStatusFirst : Prop :=
  (∀ (status d1 d2 : Byte) (rest : List Byte) (w : EventWord),
    w.toNat = status.toNat * 2 ^ 16 + d1.toNat * 2 ^ 8 + d2.toNat →
    decodeBytes (status :: d1 :: d2 :: rest) = .ok (decodeEvent w, rest)) ∧
  (∀ bytes : List Byte, bytes.length < 3 → decodeBytes bytes = .error (.incompleteWord bytes.length))

/-- 30_encoding.md sections 5 (R80, R81, decision D26): the edges of the assembler's lines and pseudo-operations. -/
def Obligations.AssemblerLineExpansions : Prop :=
  lineEdges .reset = [{ rst := true }] ∧ lineEdges .tick = [{ tick := true }] ∧
  (∀ w, lineEdges (.evt w) = [{ evtValid := true, evtData := w }]) ∧
  (∀ w, lineEdges (.evtTick w) = [{ evtValid := true, evtData := w, tick := true }]) ∧
  (∀ chan note vel, (lineEdges (.noteOn chan note vel)).flatMap decodeEdge = [.noteOn chan note vel]) ∧
  (∀ chan note vel, (lineEdges (.noteOff chan note vel)).flatMap decodeEdge = [.noteOff chan note vel]) ∧
  (∀ note, lineEdges (.pseudoNoteOn note) = lineEdges (.evt ((0x90 : BitVec 8) ++ note ++ (0x7F : BitVec 8)))) ∧
  (∀ note, lineEdges (.pseudoNoteOff note) = lineEdges (.evt ((0x80 : BitVec 8) ++ note ++ (0x00 : BitVec 8)))) ∧
  (∀ k, lineEdges (.ticks k) = (List.replicate k (lineEdges .tick)).flatten)

/-! ### The step at an edge -/

/-- When the next edge presents one well-formed operation, the step is that operation's effect, with the edge taken. -/
def Obligations.StepRunsDecodedInstruction : Prop :=
  ∀ (s : State) (i : Instr) (rest : List Edge), i.wellFormed = true → s.edges = encode i :: rest →
    step s = exec i { s with edges := rest }

/-- 30_encoding.md R77: `rst` alone; else the event, then the tick on its result; an edge with no strobe changes nothing. -/
def Obligations.EdgeAppliesEventThenTick : Prop :=
  ∀ (s : State) (e : Edge) (rest : List Edge), s.edges = e :: rest →
    let s0 : State := { s with edges := rest }
    (e.rst = true → step s = exec .reset s0) ∧
    (e.rst = false → e.evtValid = true → e.tick = false → step s = exec (decodeEvent e.evtData) s0) ∧
    (e.rst = false → e.evtValid = false → e.tick = true → step s = exec .tick s0) ∧
    (e.rst = false → e.evtValid = true → e.tick = true →
      (∀ s1, exec (decodeEvent e.evtData) s0 = .next s1 → step s = exec .tick s1) ∧
      (∀ r, exec (decodeEvent e.evtData) s0 = .refused r → step s = .refused r)) ∧
    (e.rst = false → e.evtValid = false → e.tick = false → legal s.cfg = true → step s = .next s0)

/-- 20_memory.md R53 and 70_reset_and_hazards.md R154: an event and a tick at one edge give, in one step, what they give
at two edges, refusals included. -/
def Obligations.SharedEdgeEqualsTwoEdges : Prop :=
  ∀ (s : State) (w : EventWord) (rest : List Edge),
    step { s with edges := evtTickEdge w :: rest } = steps 2 { s with edges := evtEdge w :: tickEdge :: rest }

/-- The model's choice (log 4), after 60_exceptions.md R139 (the block holds its state between operations): with no edge
left to present, a legal instance holds its state. It does so from a state that fails the checks of 10_state.md R36 too,
which is the model's choice as well (log 5). -/
def Obligations.IdleHostHoldsState : Prop :=
  ∀ s : State, legal s.cfg = true → s.edges = [] → step s = .next s

/-- 20_memory.md R56: a sequence of operations presented one per edge is the left-to-right composition of their rules;
and two runs of one sequence from RESET agree at every edge, whatever came before. -/
def Obligations.RunIsLeftToRightComposition : Prop :=
  (∀ (is : List Instr) (s : State) (rest : List Edge), (∀ i ∈ is, i.wellFormed = true) →
    s.edges = is.map encode ++ rest → steps is.length s = runOps is { s with edges := rest }) ∧
  (∀ (s s' : State) (rest : List Edge) (k : Nat), s.cfg = s'.cfg → s.edges = rstEdge :: rest →
    s'.edges = rstEdge :: rest → steps (k + 1) s = steps (k + 1) s')

/-- 30_encoding.md R73 and R74 (decisions D22, D21): two words that agree in kind and note give the same step from any
state, alone or with a tick at the same edge. -/
def Obligations.ChannelAndVelocityAreNotRead : Prop :=
  ∀ (w w' : EventWord) (s : State) (tk : Bool) (rest : List Edge),
    w.toNat / 2 ^ 20 = w'.toNat / 2 ^ 20 → w.toNat / 2 ^ 8 % 2 ^ 8 = w'.toNat / 2 ^ 8 % 2 ^ 8 →
    step { s with edges := { evtValid := true, evtData := w, tick := tk } :: rest } =
      step { s with edges := { evtValid := true, evtData := w', tick := tk } :: rest }

/-- 30_encoding.md R75: both event operations take all 8 bits of data byte 1 as the note, 128 to 255 included, and refuse
none of them. -/
def Obligations.NoteOperandIsAllEightBits : Prop :=
  ∀ (w : EventWord) (s : State) (rest : List Edge), Ready s → s.edges = evtEdge w :: rest →
    let n := w.toNat / 2 ^ 8 % 2 ^ 8
    (w.toNat / 2 ^ 20 = 9 → ∃ t, step s = .next t ∧ (t.voice (select s).1).note.toNat = n) ∧
    (w.toNat / 2 ^ 20 = 8 → ∃ t, step s = .next t ∧
      ∀ j : Slot, ((t.voice j).released = true ↔ (s.voice j).released = true ∨ (s.voice j).note.toNat = n))

/-- 30_encoding.md R78: the kinds 0x0 to 0x7 and 0xA to 0xF are EVT_IGNORED and change nothing, and no word of any kind
traps. -/
def Obligations.IgnoredKindsChangeNothing : Prop :=
  ∀ (w : EventWord) (s : State) (rest : List Edge), Ready s → s.edges = evtEdge w :: rest →
    (w.toNat / 2 ^ 20 ≤ 7 ∨ 10 ≤ w.toNat / 2 ^ 20 →
      (∃ kind bits, decodeEvent w = .evtIgnored kind bits) ∧ step s = .next { s with edges := rest }) ∧
    ∃ t, step s = .next t

/-! ### RESET -/

/-- 70_reset_and_hazards.md section 1 (R150; its values are decision D15): from ANY state with a legal configuration,
before the first RESET or not, RESET completes with every field at its reset value. -/
def Obligations.ResetCompletes : Prop :=
  ∀ s : State, legal s.cfg = true → ∃ t, exec .reset s = .next t ∧
    (∀ j : Slot, t.voice j =
      { note := 0, freq := 0, amp := 0, acnt := 0, dcnt := 0, active := false, released := false }) ∧
    t.rr = 0 ∧ t.everReset = true ∧ t.cfg = s.cfg ∧ t.edges = s.edges ∧ (outputs t).activeCount = 0

/-- 10_state.md section 5 (R35, decision D15): what `State.reset` holds; and it is what RESET gives an instance with
`State.reset`'s own configuration. -/
def Obligations.StateResetIsTheStateAfterReset : Prop :=
  State.reset.rr = 0 ∧
  (∀ j : Slot, State.reset.voice j =
    { note := 0, freq := 0, amp := 0, acnt := 0, dcnt := 0, active := false, released := false }) ∧
  ∀ s : State, s.cfg = State.reset.cfg → s.edges = [] → exec .reset s = .next State.reset

/-! ### NOTE_ON -/

/-- 40_voice_events.md sections 1 and 2 (R90, R92; the field values are decision D10): with some slot released, NOTE_ON
takes the lowest-indexed one, active or not, writes all of it, and leaves the cursor and every other slot. -/
def Obligations.NoteOnTakesLowestReleasedSlot : Prop :=
  ∀ (s : State) (chan : BitVec 4) (n : Note) (vel : Byte) (k : Slot), Ready s →
    (s.voice k).released = true → (∀ j : Slot, j < k → (s.voice j).released = false) →
    ∃ t, exec (.noteOn chan n vel) s = .next t ∧
      t.voice k = { note := n, freq := freqOf n, amp := 0, acnt := 0, dcnt := 0, active := true, released := false } ∧
      (∀ j : Slot, j ≠ k → t.voice j = s.voice j) ∧ t.rr = s.rr ∧ KeepsOwn s t

/-- 40_voice_events.md sections 1 and 2 (R90, R92; decisions D10, D32): with no slot released, NOTE_ON takes the slot the
cursor names, sounding or not, and the cursor advances modulo 10. -/
def Obligations.NoteOnTakesCursorSlot : Prop :=
  ∀ (s : State) (chan : BitVec 4) (n : Note) (vel : Byte) (k : Slot), Ready s →
    (∀ j : Slot, (s.voice j).released = false) → k.val = s.rr.toNat →
    ∃ t, exec (.noteOn chan n vel) s = .next t ∧
      t.voice k = { note := n, freq := freqOf n, amp := 0, acnt := 0, dcnt := 0, active := true, released := false } ∧
      (∀ j : Slot, j ≠ k → t.voice j = s.voice j) ∧ t.rr.toNat = (s.rr.toNat + 1) % 10 ∧ KeepsOwn s t

/-- 10_state.md R29: the cursor always holds 0 to 9; NOTE_ON advances it, modulo 10, only when no slot is released, and
otherwise does not even read it; RESET writes 0; nothing else writes it. -/
def Obligations.CursorRule : Prop :=
  ∀ (i : Instr) (s t : State), exec i s = .next t →
    t.rr.toNat ≤ 9 ∧
    (i = .reset → t.rr = 0) ∧
    (∀ chan n vel, i = .noteOn chan n vel →
      ((∀ j : Slot, (s.voice j).released = false) → t.rr.toNat = (s.rr.toNat + 1) % 10) ∧
      ((∃ j : Slot, (s.voice j).released = true) →
        t.rr = s.rr ∧ ∀ r : Cursor, r.toNat ≤ 9 → exec i { s with rr := r } = .next { t with rr := r })) ∧
    (i ≠ .reset → (∀ chan n vel, i ≠ .noteOn chan n vel) → t.rr = s.rr)

/-- 40_voice_events.md R91: the stored frequency is the exact real value floored, with the bounds, the integer cases and
the distance from an integer that the rule names, n = 31 the closest. -/
def Obligations.FreqIsExactFloor : Prop :=
  ∀ (hertz : Note → ℝ), (∀ n, hertz n = (440 / 32 : ℝ) * 2 ^ (((n.toNat : ℝ) - 9) / 12)) →
    (∀ n, ((freqOf n).toNat : ℤ) = ⌊hertz n⌋) ∧
    (∀ n, 8 ≤ (freqOf n).toNat ∧ (freqOf n).toNat ≤ 20390018) ∧
    (∀ n, (∃ m : ℤ, hertz n = m) ↔ ∃ k : ℕ, n.toNat = 33 + 12 * k) ∧
    (∀ n (k : ℕ), n.toNat = 33 + 12 * k → hertz n = 55 * 2 ^ k) ∧
    (∀ n, (¬ ∃ m : ℤ, hertz n = m) → ∀ m : ℤ, 0.00057 ≤ |hertz n - m|) ∧
    (∀ n, (¬ ∃ m : ℤ, hertz n = m) → ∀ m : ℤ, |hertz 31 - 49| ≤ |hertz n - m|)

/-- 40_voice_events.md section 5, item 1 (R95): eleven NOTE_ONs from RESET, with no NOTE_OFF, take slots 0 to 9 and then
slot 0; after m of them exactly min m 10 slots are active. -/
def Obligations.EleventhNoteOnOverwritesSlotZero : Prop :=
  ∀ (c : Config) (chan : Fin 11 → BitVec 4) (note : Fin 11 → Note) (vel : Fin 11 → Byte) (rest : List Edge), legal c = true →
    let s := State.resetWith c
      (List.ofFn (fun m : Fin 11 => encode (.noteOn (chan m) (note m) (vel m))) ++ rest)
    (∀ m : Nat, m ≤ 11 → ∃ t, steps m s = .next t ∧ (outputs t).activeCount.toNat = min m 10) ∧
    ∃ t, steps 11 s = .next t ∧ (t.voice 0).note = note 10 ∧
      (∀ j : Fin 10, j ≠ 0 → (t.voice j).note = note j.castSucc) ∧
      (∀ j : Slot, (t.voice j).active = true ∧ (t.voice j).freq = freqOf (t.voice j).note) ∧ t.rr = 1

/-! ### NOTE_OFF and EVT_IGNORED -/

/-- 40_voice_events.md section 3 (R93; decision D31: `active` is not read): NOTE_OFF sets `released` on exactly the
slots that hold the note and changes nothing else. -/
def Obligations.NoteOffReleasesEveryMatch : Prop :=
  ∀ (s : State) (chan : BitVec 4) (n : Note) (vel : Byte), Ready s →
    ∃ t, exec (.noteOff chan n vel) s = .next t ∧
      (∀ j : Slot, (s.voice j).note = n → t.voice j = { s.voice j with released := true }) ∧
      (∀ j : Slot, (s.voice j).note ≠ n → t.voice j = s.voice j) ∧ t.rr = s.rr ∧ KeepsOwn s t

/-- 40_voice_events.md section 3, corner case (R93 with the reset values of decision D15): right after RESET, NOTE_OFF 0
releases all ten slots, and the NOTE_ON after it takes slot 0 without advancing the cursor. -/
def Obligations.NoteOffZeroAfterReset : Prop :=
  ∀ (c : Config) (chan chan' : BitVec 4) (n : Note) (vel vel' : Byte) (rest : List Edge), legal c = true →
    ∃ t u, steps 1 (State.resetWith c (encode (.noteOff chan 0 vel) :: encode (.noteOn chan' n vel') :: rest)) = .next t ∧
      (∀ j : Slot, (t.voice j).released = true ∧ (t.voice j).active = false) ∧ t.rr = 0 ∧
      step t = .next u ∧ (u.voice 0).note = n ∧ (u.voice 0).active = true ∧ u.rr = 0 ∧
      (∀ j : Slot, j ≠ 0 → u.voice j = t.voice j)

/-- 40_voice_events.md section 5, item 2 (R95) and 70_reset_and_hazards.md R157: release one slot by its note, sounding
or not, let any number of ticks pass, and the next NOTE_ON takes that slot and leaves the cursor. -/
def Obligations.ReleasedSlotIsReusedFirst : Prop :=
  ∀ (s : State) (k : Slot) (n n' : Note) (chan chan' : BitVec 4) (vel vel' : Byte) (m : Nat) (rest : List Edge),
    Ready s → (∀ j : Slot, (s.voice j).released = false) → (s.voice k).note = n →
    (∀ j : Slot, j ≠ k → (s.voice j).note ≠ n) →
    s.edges = encode (.noteOff chan n vel) ::
      (List.replicate m tickEdge ++ encode (.noteOn chan' n' vel') :: rest) →
    ∃ t, steps (m + 2) s = .next t ∧ (t.voice k).note = n' ∧ (t.voice k).freq = freqOf n' ∧
      (t.voice k).amp = 0 ∧ (t.voice k).active = true ∧ t.rr = s.rr ∧ t.edges = rest ∧
      ∀ j : Slot, (t.voice j).released = false ∧ (j ≠ k → (t.voice j).note = (s.voice j).note)

/-- 40_voice_events.md section 4 (R94, decision D4): EVT_IGNORED completes with the state unchanged. -/
def Obligations.EvtIgnoredCompletes : Prop :=
  ∀ (s : State) (kind : BitVec 4) (bits : BitVec 20), Ready s → exec (.evtIgnored kind bits) s = .next s

/-! ### TICK -/

/-- 41_envelope_tick.md sections 1 and 2 (R110 to R112; decisions D6, D7): TICK completes, and an active, unreleased slot
inside the attack window takes the floor of the ramp at its counter, counts one up, and changes nothing else. -/
def Obligations.TickAttackBranch : Prop :=
  ∀ s : State, Ready s → ∃ t, exec .tick s = .next t ∧ t.rr = s.rr ∧ KeepsOwn s t ∧
    ∀ j : Slot, (s.voice j).active = true → (s.voice j).released = false →
      10 * (s.voice j).acnt.toNat < s.cfg.sampleRate →
      (t.voice j).amp.toInt = ⌊(20 * ((s.voice j).acnt.toNat : ℚ) * 2 ^ 28) / (s.cfg.sampleRate : ℚ)⌋ ∧
      (t.voice j).acnt.toNat = (s.voice j).acnt.toNat + 1 ∧
      t.voice j = { s.voice j with amp := (t.voice j).amp, acnt := (t.voice j).acnt }

/-- 41_envelope_tick.md R113: on an active slot that is not in attack every TICK subtracts DECAY_STEP, and RELEASE_STEP
too while it is released, exactly (the code never wraps). -/
def Obligations.TickDecayBranch : Prop :=
  ∀ s : State, Ready s → ∃ t, exec .tick s = .next t ∧
    ∀ j : Slot, (s.voice j).active = true →
      ¬ (10 * (s.voice j).acnt.toNat < s.cfg.sampleRate ∧ (s.voice j).released = false) →
      ((s.voice j).released = false → (t.voice j).amp.toInt = (s.voice j).amp.toInt - s.cfg.decayStep.toInt) ∧
      ((s.voice j).released = true → (t.voice j).amp.toInt =
        (s.voice j).amp.toInt - s.cfg.decayStep.toInt - s.cfg.releaseStep.toInt)

/-- 41_envelope_tick.md sections 2 (R114, R115; decisions D11 to D13): after a TICK, a slot that was in the decay branch
is active exactly if its new amplitude is positive, with its other fields unchanged; a slot in attack stays active; an
inactive slot is unchanged. -/
def Obligations.TickDeactivation : Prop :=
  ∀ s : State, Ready s → ∃ t, exec .tick s = .next t ∧
    ∀ j : Slot,
      ((s.voice j).active = true →
        ¬ (10 * (s.voice j).acnt.toNat < s.cfg.sampleRate ∧ (s.voice j).released = false) →
        ((t.voice j).active = true ↔ 0 < (t.voice j).amp.toInt) ∧
        t.voice j = { s.voice j with amp := (t.voice j).amp, active := (t.voice j).active }) ∧
      ((s.voice j).active = true → 10 * (s.voice j).acnt.toNat < s.cfg.sampleRate →
        (s.voice j).released = false → (t.voice j).active = true) ∧
      ((s.voice j).active = false → t.voice j = s.voice j)

/-- 41_envelope_tick.md section 2 (R112) and 60_exceptions.md R134: slots do not interact within a TICK; equal slots of
two states with one configuration, at any two places, come out equal. -/
def Obligations.TickSlotsAreIndependent : Prop :=
  ∀ (s s' : State) (j j' : Slot), Ready s → Ready s' → s.cfg = s'.cfg → s.voice j = s'.voice j' →
    ∃ t t', exec .tick s = .next t ∧ exec .tick s' = .next t' ∧ t.voice j = t'.voice j'

/-! ### Frames, refusals, outputs -/

/-- 10_state.md section 6 (R37) and 40_voice_events.md R95 item 3: what each operation leaves unchanged. -/
def Obligations.AccessMatrixFrame : Prop :=
  ∀ (i : Instr) (s t : State), exec i s = .next t → t.cfg = s.cfg ∧ t.edges = s.edges ∧
    match i with
    | .noteOn _ _ _ => t.everReset = s.everReset ∧ ∀ j : Slot, j ≠ (select s).1 → t.voice j = s.voice j
    | .noteOff _ _ _ => t.everReset = s.everReset ∧ t.rr = s.rr ∧
        ∀ j : Slot, { t.voice j with released := false } = { s.voice j with released := false } ∧
          ((s.voice j).released = true → (t.voice j).released = true)
    | .evtIgnored _ _ => t = s
    | .tick => t.everReset = s.everReset ∧ t.rr = s.rr ∧
        ∀ j : Slot, (t.voice j).note = (s.voice j).note ∧ (t.voice j).freq = (s.voice j).freq ∧
          (t.voice j).dcnt = (s.voice j).dcnt ∧ (t.voice j).released = (s.voice j).released
    | .reset => t.everReset = true

/-- 60_exceptions.md section 1 (the three cases of a model's refusal, the spec's decision D19): the case in which each
operation is refused. Two things in it are the MODEL'S choice, DEDUCED: that the checks of 10_state.md R36 decide the third
case (log 5); and that an illegal configuration is named first and is refused by RESET and at every edge too (log 8). -/
def Obligations.OperationsRefusedInThreeCases : Prop :=
  ∀ (i : Instr) (s : State),
    (legal s.cfg = false → exec i s = .refused .illegalConfiguration ∧ step s = .refused .illegalConfiguration) ∧
    (legal s.cfg = true → s.everReset = false → i ≠ .reset → exec i s = .refused .beforeFirstReset) ∧
    (legal s.cfg = true → s.everReset = true → consistent s = false → i ≠ .reset → exec i s = .refused .unreachableState)

/-- 60_exceptions.md section 1 (the three cases of a model's refusal, the spec's decision D19): a step refuses in no other
case, an edge of two operations included. Two things in it are the MODEL'S choice, DEDUCED, and no rule of the spec: that
the third case is decided by the checks of 10_state.md R36 (log 5); and, where more than one case holds, which of them the
refusal names, the configuration first and the missing RESET next (log 8). -/
def Obligations.StepRefusesOnlyInThreeCases : Prop :=
  ∀ (s : State) (r : Refusal), step s = .refused r →
    (r = .illegalConfiguration ∧ legal s.cfg = false) ∨
    (r = .beforeFirstReset ∧ legal s.cfg = true ∧ s.everReset = false) ∨
    (r = .unreachableState ∧ legal s.cfg = true ∧ s.everReset = true ∧ consistent s = false)

/-- 10_state.md section 4 (R33, R34; decision D25): each port is the field it names, `o_active_count` is the number of
active slots and at most 10, and states that agree in the exported fields drive the same ports. -/
def Obligations.OutputPortsShowTheState : Prop :=
  (∀ (s : State) (j : Slot), (outputs s).slot[j.val] =
    { note := (s.voice j).note, freq := (s.voice j).freq, amp := (s.voice j).amp, acnt := (s.voice j).acnt,
      active := (s.voice j).active, released := (s.voice j).released }) ∧
  (∀ s : State, (outputs s).activeCount.toNat =
    (Finset.univ.filter fun j : Slot => (s.voice j).active = true).card ∧ (outputs s).activeCount.toNat ≤ 10) ∧
  (∀ s t : State, (∀ j : Slot, { s.voice j with dcnt := 0 } = { t.voice j with dcnt := 0 }) → outputs s = outputs t)

/-! ### Invariants -/

/-- 10_state.md section 5: the state after RESET meets the invariant, under every legal configuration. -/
def Obligations.ResetMeetsInvariant : Prop :=
  ∀ (c : Config) (edges : List Edge), legal c = true → EnvelopeInv (State.resetWith c edges)

/-- 10_state.md sections 1 and 6 (R22, R28, R36), 41_envelope_tick.md (R110, R111, R114): every edge keeps the invariant,
from every state that meets it. -/
def Obligations.StepKeepsInvariant : Prop :=
  ∀ s t : State, EnvelopeInv s → step s = .next t → EnvelopeInv t

/-- 10_state.md sections 1 and 6 (R22, R23, R36): the bounds of every state reachable from RESET. -/
def Obligations.ReachableStatesMeetTheBounds : Prop :=
  ∀ s : State, Reachable s → s.rr.toNat ≤ 9 ∧ (outputs s).activeCount.toNat ≤ 10 ∧
    ∀ j : Slot, (s.voice j).dcnt = 0 ∧ (s.voice j).acnt.toNat ≤ ⌈(s.cfg.sampleRate : ℚ) / 10⌉₊ ∧
      ((s.voice j).active = true → 0 ≤ (s.voice j).amp.toInt) ∧
      ((s.voice j).active = false → (s.voice j).amp.toInt ≤ 0) ∧
      -(s.cfg.decayStep.toInt + s.cfg.releaseStep.toInt) ≤ (s.voice j).amp.toInt ∧
      (s.voice j).amp.toInt ≤ 2 ^ 29 - 1

/-- 60_exceptions.md section 1 (R130): every operation is total on every state reachable from RESET: whatever the host
presents, no run from RESET under a legal configuration ever stops. -/
def Obligations.ReachableStatesNeverStop : Prop :=
  ∀ (s : State) (edges : List Edge) (k : Nat), Reachable s → ∃ t, steps k { s with edges := edges } = .next t

/-- 60_exceptions.md section 1 (R130: every operation is total on every state reachable from RESET) as a step lemma: from
every state in which none of the three cases of refusal holds, whatever the next edge presents, a step answers a next state,
and none of the cases holds there. That `Ready` reads the third case by the checks of 10_state.md R36 is the MODEL'S choice,
DEDUCED (log 5). -/
def Obligations.StepFromReadyCompletesReady : Prop :=
  ∀ s : State, Ready s → ∃ t, step s = .next t ∧ Ready t

/-- 10_state.md section 3 (R30, decision D36) and 00_scope.md R5: no run changes the configuration. -/
def Obligations.ConfigurationNeverChanges : Prop :=
  ∀ (s t : State) (k : Nat), steps k s = .next t → t.cfg = s.cfg

/-! ### Laws of the envelope (41_envelope_tick.md section 4) -/

/-- R118 item 1: two successive TICKs in the attack window give strictly increasing amplitudes. -/
def Obligations.AttackStrictlyIncreases : Prop :=
  ∀ (s : State) (j : Slot) (rest : List Edge), Ready s → (s.voice j).active = true → (s.voice j).released = false →
    10 * ((s.voice j).acnt.toNat + 1) < s.cfg.sampleRate → s.edges = tickEdge :: tickEdge :: rest →
    ∃ t u, step s = .next t ∧ step t = .next u ∧ (t.voice j).amp.toInt < (u.voice j).amp.toInt ∧
      (u.voice j).active = true

/-- R118 item 2: a TICK in the decay branch lowers the amplitude by at least DECAY_STEP, so strictly, and the voice
deactivates exactly when the amplitude is then zero or below. -/
def Obligations.DecayStrictlyDecreases : Prop :=
  ∀ (s : State) (j : Slot), Ready s → (s.voice j).active = true →
    ¬ (10 * (s.voice j).acnt.toNat < s.cfg.sampleRate ∧ (s.voice j).released = false) →
    ∃ t, exec .tick s = .next t ∧ (t.voice j).amp.toInt ≤ (s.voice j).amp.toInt - s.cfg.decayStep.toInt ∧
      (t.voice j).amp.toInt < (s.voice j).amp.toInt ∧
      ((t.voice j).active = false ↔ (t.voice j).amp.toInt ≤ 0)

/-- R118 item 3: the lifetime of an unreleased voice, counted in TICKs from its allocation. -/
def Obligations.UnreleasedLifetime : Prop :=
  ∀ (s : State) (j : Slot) (k A L : Nat) (rest : List Edge), Ready s → (s.voice j).active = true →
    (s.voice j).released = false → (s.voice j).amp = 0 → (s.voice j).acnt = 0 →
    A = ⌈(s.cfg.sampleRate : ℚ) / 10⌉₊ →
    L = ⌊(20 * ((A : ℚ) - 1) * 2 ^ 28) / (s.cfg.sampleRate : ℚ)⌋₊ →
    s.edges = List.replicate k tickEdge ++ rest →
    ∃ t, steps k s = .next t ∧
      ((t.voice j).active = true ↔ k < A + max 1 ⌈(L : ℚ) / (s.cfg.decayStep.toInt : ℚ)⌉₊)

/-- R118 item 4: the lifetime of a voice from the moment it is released. -/
def Obligations.ReleasedLifetime : Prop :=
  ∀ (s : State) (j : Slot) (k : Nat) (rest : List Edge), Ready s → (s.voice j).active = true →
    (s.voice j).released = true → s.edges = List.replicate k tickEdge ++ rest →
    ∃ t, steps k s = .next t ∧
      ((t.voice j).active = true ↔ k < max 1
        ⌈((s.voice j).amp.toInt : ℚ) / ((s.cfg.decayStep.toInt : ℚ) + (s.cfg.releaseStep.toInt : ℚ))⌉₊)

/-- R118 item 5: the ramp is above 1.0 exactly from the counter values that the item names on; at SR = 44100 the first is
2206. -/
def Obligations.AttackExceedsOne : Prop :=
  ∀ (c : Config) (count : Nat), legal c = true →
    (2 ^ 28 < attackCode c count ↔ (2 ^ 28 + 1) * c.sampleRate ≤ 2 ^ 28 * (20 * count)) ∧
    (c.sampleRate = 44100 → (2 ^ 28 < attackCode c count ↔ 2206 ≤ count))

/-- 41_envelope_tick.md section 1 (R110) and 10_state.md R23: a voice that stays unreleased counts exactly
`ceil(SR / 10)` attack ticks from its allocation and then keeps its counter. -/
def Obligations.AttackTickCount : Prop :=
  ∀ (s : State) (j : Slot) (k : Nat) (rest : List Edge), Ready s → (s.voice j).active = true →
    (s.voice j).released = false → (s.voice j).acnt = 0 → s.edges = List.replicate k tickEdge ++ rest →
    ∃ t, steps k s = .next t ∧ (t.voice j).acnt.toNat = min k ⌈(s.cfg.sampleRate : ℚ) / 10⌉₊

/-- 70_reset_and_hazards.md section 4 (R155): the first TICK after a NOTE_ON gives amplitude 0 and the second a non-zero
one; a NOTE_OFF of the same note before the first TICK gives a voice that TICK deactivates at the negated sum of the
steps. -/
def Obligations.FirstTicksOfAVoice : Prop :=
  ∀ (s : State) (n : Note) (chan chan' : BitVec 4) (vel vel' : Byte) (rest : List Edge), Ready s →
    (s.edges = encode (.noteOn chan n vel) :: tickEdge :: tickEdge :: rest →
      ∃ t u, steps 2 s = .next t ∧ step t = .next u ∧ (t.voice (select s).1).amp = 0 ∧
        (t.voice (select s).1).acnt = 1 ∧ (t.voice (select s).1).active = true ∧
        (u.voice (select s).1).amp ≠ 0) ∧
    (s.edges = encode (.noteOn chan n vel) :: encode (.noteOff chan' n vel') :: tickEdge :: rest →
      ∃ t, steps 3 s = .next t ∧ (t.voice (select s).1).active = false ∧
        (t.voice (select s).1).amp.toInt = -(s.cfg.decayStep.toInt + s.cfg.releaseStep.toInt))

/-! ### The host's schedule -/

/-- 70_reset_and_hazards.md section 3 (R153): a period presents its events in capture order, none dropped, and then
exactly one TICK, shared edge or not. -/
def Obligations.PeriodPresentsEventsThenOneTick : Prop :=
  ∀ p : Period, (periodEdges p.events p.shared).flatMap decodeEdge = periodOps p

/-- 70_reset_and_hazards.md sections 2 and 3 (R152, R153): from ANY power-on state with a legal configuration, a host that
holds `rst` for at least one edge and then presents sample periods runs to the end, in the state that the periods'
operations give from the state after RESET. -/
def Obligations.SessionRunsFromPowerOn : Prop :=
  ∀ (s : State) (holds : Nat) (periods : List Period), legal s.cfg = true → s.edges = sessionEdges holds periods →
    ∃ t, steps s.edges.length s = .next t ∧ t.edges = [] ∧ EnvelopeInv t ∧
      runOps (periods.flatMap periodOps) (State.resetWith s.cfg []) = .next t
end

