-- ==== Sys2Proof/Laws/Decode.lean ====
section
/-! SUPPORT. A word built of fields as a number, what the event word's fields read from it, and what the edges of the
encoder present. -/

namespace Sys2Proof

/-- Concatenation as arithmetic: the high part is shifted past the low one. -/
theorem append_toNat {m n : Nat} (x : BitVec m) (y : BitVec n) : (x ++ y).toNat = x.toNat * 2 ^ n + y.toNat := by
  rw [BitVec.toNat_append, ← Nat.shiftLeft_add_eq_or_of_lt y.isLt, Nat.shiftLeft_eq]

/-- A field of the event word as arithmetic. -/
theorem field_toNat (w : EventWord) (lo len : Nat) :
    (w.extractLsb' lo len).toNat = w.toNat / 2 ^ lo % 2 ^ len := by
  rw [BitVec.extractLsb'_toNat, Nat.shiftRight_eq_div_pow]

section Fields
variable (kind chan : BitVec 4) (d1 d2 : Byte) (bits : BitVec 20)

theorem messageWord_toNat : (messageWord kind chan d1 d2).toNat =
    ((kind.toNat * 2 ^ 4 + chan.toNat) * 2 ^ 8 + d1.toNat) * 2 ^ 8 + d2.toNat := by
  change ((kind ++ chan ++ d1 ++ d2 : BitVec (4 + 4 + 8 + 8))).toNat = _
  rw [append_toNat, append_toNat, append_toNat]

theorem kindWord_toNat : ((kind ++ bits : BitVec 24)).toNat = kind.toNat * 2 ^ 20 + bits.toNat := by
  exact append_toNat kind bits

@[simp] theorem eventKind_messageWord : eventKind (messageWord kind chan d1 d2) = kind := by
  apply BitVec.eq_of_toNat_eq
  rw [eventKind, field_toNat, messageWord_toNat]
  omega

@[simp] theorem eventChan_messageWord : eventChan (messageWord kind chan d1 d2) = chan := by
  apply BitVec.eq_of_toNat_eq
  rw [eventChan, field_toNat, messageWord_toNat]
  omega

@[simp] theorem eventNote_messageWord : eventNote (messageWord kind chan d1 d2) = d1 := by
  apply BitVec.eq_of_toNat_eq
  rw [eventNote, field_toNat, messageWord_toNat]
  omega

@[simp] theorem eventVelocity_messageWord : eventVelocity (messageWord kind chan d1 d2) = d2 := by
  apply BitVec.eq_of_toNat_eq
  rw [eventVelocity, field_toNat, messageWord_toNat]
  omega

@[simp] theorem eventKind_kindWord : eventKind (kind ++ bits) = kind := by
  apply BitVec.eq_of_toNat_eq
  rw [eventKind, field_toNat, kindWord_toNat]
  omega

@[simp] theorem eventRest_kindWord : eventRest (kind ++ bits) = bits := by
  apply BitVec.eq_of_toNat_eq
  rw [eventRest, field_toNat, kindWord_toNat]
  omega

end Fields

/-! ### The decoder, by the kind nibble (30_encoding.md R72) -/

theorem decodeEvent_on {w : EventWord} (h : eventKind w = 0x9) :
    decodeEvent w = .noteOn (eventChan w) (eventNote w) (eventVelocity w) := if_pos h

theorem decodeEvent_off {w : EventWord} (h : eventKind w = 0x8) :
    decodeEvent w = .noteOff (eventChan w) (eventNote w) (eventVelocity w) := by
  rw [decodeEvent, h]
  rfl

theorem decodeEvent_ignored {w : EventWord} (h9 : eventKind w ≠ 0x9) (h8 : eventKind w ≠ 0x8) :
    decodeEvent w = .evtIgnored (eventKind w) (eventRest w) := by
  rw [decodeEvent, if_neg h9, if_neg h8]

/-- The kind nibble as a number. -/
theorem eventKind_toNat (w : EventWord) : (eventKind w).toNat = w.toNat / 2 ^ 20 := by
  have := w.isLt
  rw [eventKind, field_toNat]
  omega

/-- A field is the number its bits spell. -/
theorem field_eq_ofNat (w : EventWord) (lo len : Nat) :
    w.extractLsb' lo len = BitVec.ofNat len (w.toNat / 2 ^ lo % 2 ^ len) := by
  apply BitVec.eq_of_toNat_eq
  rw [field_toNat, BitVec.toNat_ofNat, Nat.mod_mod]

/-- The four fields of a word, put together, are the word (R71). -/
theorem messageWord_fields (w : EventWord) :
    messageWord (eventKind w) (eventChan w) (eventNote w) (eventVelocity w) = w := by
  apply BitVec.eq_of_toNat_eq
  have := w.isLt
  rw [messageWord_toNat, eventKind, eventChan, eventNote, eventVelocity]
  simp only [field_toNat]
  omega

/-- The kind and the other twenty bits of a word, put together, are the word. -/
theorem kindWord_fields (w : EventWord) : (eventKind w ++ eventRest w : BitVec 24) = w := by
  apply BitVec.eq_of_toNat_eq
  have := w.isLt
  rw [kindWord_toNat, eventKind, eventRest]
  simp only [field_toNat]
  omega

/-- What each of the edges the encoder uses presents (30_encoding.md R77, R80). -/
@[simp] theorem decodeEdge_evtEdge (w : EventWord) : decodeEdge (evtEdge w) = [decodeEvent w] := rfl
@[simp] theorem decodeEdge_tickEdge : decodeEdge tickEdge = [.tick] := rfl
@[simp] theorem decodeEdge_rstEdge : decodeEdge rstEdge = [.reset] := rfl
@[simp] theorem decodeEdge_evtTickEdge (w : EventWord) : decodeEdge (evtTickEdge w) = [decodeEvent w, .tick] := rfl

end Sys2Proof
end

