-- ==== Sys2Proof/Laws/State.lean ====
section
/-! SUPPORT. What each state update does to each field and to each slot: no later proof unfolds a record update. -/

namespace Sys2Proof.Machine

section Fields
variable (s : State) (i j : Slot) (x : Voice) (f : Voice → Voice) (r : Cursor) (es : List Edge) (c : Config) (e : Edge)

@[simp] theorem setVoice_rr : (s.setVoice i x).rr = s.rr := rfl
@[simp] theorem setVoice_cfg : (s.setVoice i x).cfg = s.cfg := rfl
@[simp] theorem setVoice_everReset : (s.setVoice i x).everReset = s.everReset := rfl
@[simp] theorem setVoice_edges : (s.setVoice i x).edges = s.edges := rfl

@[simp] theorem mapVoices_rr : (s.mapVoices f).rr = s.rr := rfl
@[simp] theorem mapVoices_cfg : (s.mapVoices f).cfg = s.cfg := rfl
@[simp] theorem mapVoices_everReset : (s.mapVoices f).everReset = s.everReset := rfl
@[simp] theorem mapVoices_edges : (s.mapVoices f).edges = s.edges := rfl

@[simp] theorem setCursor_rr : (s.setCursor r).rr = r := rfl
@[simp] theorem setCursor_cfg : (s.setCursor r).cfg = s.cfg := rfl
@[simp] theorem setCursor_everReset : (s.setCursor r).everReset = s.everReset := rfl
@[simp] theorem setCursor_edges : (s.setCursor r).edges = s.edges := rfl
@[simp] theorem setCursor_voice : (s.setCursor r).voice i = s.voice i := rfl

@[simp] theorem resetWith_rr : (State.resetWith c es).rr = 0 := rfl
@[simp] theorem resetWith_cfg : (State.resetWith c es).cfg = c := rfl
@[simp] theorem resetWith_everReset : (State.resetWith c es).everReset = true := rfl
@[simp] theorem resetWith_edges : (State.resetWith c es).edges = es := rfl

@[simp] theorem withRr_voice : State.voice { s with rr := r } i = s.voice i := rfl
@[simp] theorem withEdges_voice : State.voice { s with edges := es } i = s.voice i := rfl
@[simp] theorem present_edges : (present e s).edges = e :: s.edges := rfl
@[simp] theorem present_voice : (present e s).voice i = s.voice i := rfl
@[simp] theorem withFetchWord_edges (n w : Nat) : (s.withFetchWord n w).edges = tableWordEdge n w :: s.edges := rfl

end Fields

/-- Every slot is in reset state after RESET (10_state.md R35). -/
@[simp] theorem voice_resetWith (c : Config) (es : List Edge) (i : Slot) :
    (State.resetWith c es).voice i = Voice.reset := by
  simp [State.voice, State.resetWith]

/-- Reading the slot just written. -/
@[simp] theorem voice_setVoice_same (s : State) (i : Slot) (x : Voice) : (s.setVoice i x).voice i = x := by
  simp [State.voice, State.setVoice]

/-- Reading any other slot. -/
theorem voice_setVoice_other (s : State) {i j : Slot} (x : Voice) (h : j ≠ i) :
    (s.setVoice i x).voice j = s.voice j := by
  have h' : i.val ≠ j.val := fun e => h (Fin.ext e.symm)
  simp [State.voice, State.setVoice, h']

/-- Reading a slot after every slot was written from its own value. -/
@[simp] theorem voice_mapVoices (s : State) (f : Voice → Voice) (i : Slot) :
    (s.mapVoices f).voice i = f (s.voice i) := by
  simp [State.voice, State.mapVoices]

/-- Two states are equal when every slot and every other field are. -/
theorem state_ext {s t : State} (hv : ∀ i : Slot, s.voice i = t.voice i) (hr : s.rr = t.rr) (hc : s.cfg = t.cfg)
    (he : s.everReset = t.everReset) (hs : s.edges = t.edges) : s = t := by
  obtain ⟨v, r, c, e, es⟩ := s
  obtain ⟨v', r', c', e', es'⟩ := t
  have h : v = v' := by
    apply Vector.ext
    intro i hi
    exact hv ⟨i, hi⟩
  simp_all

end Sys2Proof.Machine
end

