-- ==== Sys2Proof/Laws/Ops.lean ====
section
/-! SUPPORT. What each shared operation can do, said once: slot selection, the refusals, sequencing, one edge. -/

namespace Sys2Proof.Machine

/-! ### Slot selection (40_voice_events.md R90) -/

theorem mem_slots (i : Slot) : i ∈ slots := by
  revert i
  decide

theorem slots_ascending : slots.Pairwise (· < ·) := by decide

/-- No slot is released exactly when the scan finds none. -/
theorem lowestReleased_eq_none (s : State) :
    lowestReleased s = none ↔ ∀ j : Slot, (s.voice j).released = false := by
  simp [lowestReleased, List.find?_eq_none, mem_slots]

/-- What the scan answers is released, and no slot before it is. -/
theorem lowestReleased_spec {s : State} {k : Slot} (h : lowestReleased s = some k) :
    (s.voice k).released = true ∧ ∀ j : Slot, j < k → (s.voice j).released = false := by
  obtain ⟨hk, before, after, hs, hb⟩ := List.find?_eq_some_iff_append.mp h
  refine ⟨hk, fun j hj => ?_⟩
  have hmem : j ∈ before ++ k :: after := hs ▸ mem_slots j
  have hasc : (before ++ k :: after).Pairwise (· < ·) := hs ▸ slots_ascending
  rcases List.mem_append.mp hmem with hm | hm
  · simpa using hb j hm
  · rcases List.mem_cons.mp hm with rfl | hm
    · exact absurd hj (lt_irrefl _)
    · have : k < j := List.rel_of_pairwise_cons (List.pairwise_append.mp hasc).2.1 hm
      exact absurd hj (not_lt.mpr this.le)

/-- The scan answers the lowest-indexed released slot. -/
theorem lowestReleased_eq_some {s : State} {k : Slot} :
    lowestReleased s = some k ↔ (s.voice k).released = true ∧ ∀ j : Slot, j < k → (s.voice j).released = false := by
  refine ⟨lowestReleased_spec, fun ⟨hk, hlt⟩ => ?_⟩
  cases hq : lowestReleased s with
  | none => simp [(lowestReleased_eq_none s).mp hq k] at hk
  | some q =>
    obtain ⟨hq1, hq2⟩ := lowestReleased_spec hq
    rcases lt_trichotomy q k with h | h | h
    · simp [hlt q h] at hq1
    · rw [h]
    · simp [hq2 k h] at hk

/-- The scan reads the `released` flags alone. -/
theorem lowestReleased_congr {s t : State} (h : ∀ j : Slot, (s.voice j).released = (t.voice j).released) :
    lowestReleased s = lowestReleased t := by
  unfold lowestReleased
  congr 1
  exact funext h

/-- With some slot released, `select` answers the lowest of them and the cursor as it is. -/
theorem select_released {s : State} {k : Slot} (hk : (s.voice k).released = true)
    (hlt : ∀ j : Slot, j < k → (s.voice j).released = false) : select s = (k, s.rr) := by
  simp [select, lowestReleased_eq_some.mpr ⟨hk, hlt⟩]

/-- With no slot released, `select` answers the cursor's slot and the advanced cursor. -/
theorem select_unreleased {s : State} (h : ∀ j : Slot, (s.voice j).released = false) :
    select s = (cursorSlot s.rr, nextCursor s.rr) := by
  simp [select, (lowestReleased_eq_none s).mpr h]

theorem cursorSlot_val {r : Cursor} (h : r.toNat ≤ 9) : (cursorSlot r).val = r.toNat :=
  Nat.mod_eq_of_lt (by omega)

theorem nextCursor_toNat (r : Cursor) : (nextCursor r).toNat = (r.toNat + 1) % 10 := by
  simp only [nextCursor, BitVec.toNat_ofNat]
  omega

theorem nextCursor_le (r : Cursor) : (nextCursor r).toNat ≤ 9 := by
  rw [nextCursor_toNat]
  omega

/-- The cursor `select` answers stays in 0..9 (10_state.md R29). -/
theorem select_cursor_le {s : State} (h : s.rr.toNat ≤ 9) : (select s).2.toNat ≤ 9 := by
  unfold select
  split
  · exact h
  · exact nextCursor_le _

/-! ### The refusals (60_exceptions.md R131) -/

/-- `legal` is the list of 00_scope.md R11. -/
theorem legal_iff {c : Config} : legal c = true ↔ 1 ≤ c.sampleRate ∧ c.sampleRate ≤ 2 ^ 24 ∧
    1 ≤ c.decayStep.toInt ∧ c.decayStep.toInt < c.releaseStep.toInt ∧
    c.decayStep.toInt + c.releaseStep.toInt ≤ 2 ^ 30 := by
  simp only [legal, decide_eq_true_eq]

/-- `consistent` is the list of 10_state.md R36. -/
theorem consistent_iff {s : State} :
    consistent s = true ↔ s.rr.toNat ≤ 9 ∧ ∀ i : Slot, VoiceOk s.cfg (s.voice i) := by
  simp only [consistent, decide_eq_true_eq]

section Guards
variable {s t u : State}

@[simp] theorem whenConfigured_legal (h : legal s.cfg = true) : whenConfigured s t = .next t := if_pos h

theorem whenConfigured_illegal (h : legal s.cfg = false) : whenConfigured s t = .refused .illegalConfiguration := by
  simp [whenConfigured, h]

/-- If the check of the configuration lets the machine go on, the configuration is legal and the state is the one
offered. -/
theorem whenConfigured_eq_next : whenConfigured s t = .next u ↔ legal s.cfg = true ∧ t = u := by
  unfold whenConfigured
  split <;> simp [*]

/-- If the three checks let the machine go on, none of the three cases holds and the state is the one offered. -/
theorem whenReady_eq_next :
    whenReady s t = .next u ↔ (legal s.cfg = true ∧ s.everReset = true ∧ consistent s = true) ∧ t = u := by
  unfold whenReady
  cases legal s.cfg <;> cases s.everReset <;> cases consistent s <;> simp

/-- Where none of the three cases holds, the machine goes on. -/
theorem whenReady_ready (h : legal s.cfg = true ∧ s.everReset = true ∧ consistent s = true) :
    whenReady s t = .next t :=
  whenReady_eq_next.mpr ⟨h, rfl⟩

/-- A refusal names the case that holds. -/
theorem whenReady_eq_refused {r : Refusal} : whenReady s t = .refused r ↔
    (r = .illegalConfiguration ∧ legal s.cfg = false) ∨
    (r = .beforeFirstReset ∧ legal s.cfg = true ∧ s.everReset = false) ∨
    (r = .unreachableState ∧ legal s.cfg = true ∧ s.everReset = true ∧ consistent s = false) := by
  unfold whenReady
  cases legal s.cfg <;> cases s.everReset <;> cases consistent s <;> simp [eq_comm]

theorem whenConfigured_eq_refused {r : Refusal} : whenConfigured s t = .refused r ↔
    r = .illegalConfiguration ∧ legal s.cfg = false := by
  unfold whenConfigured
  cases legal s.cfg <;> simp [eq_comm]

end Guards

/-! ### Sequencing and edges (30_encoding.md R77) -/

section Edges
variable {s t : State} {e : Edge} {rest : List Edge}

@[simp] theorem andThen_next (k : State → Host.Outcome State Fault Refusal) : andThen (.next s) k = k s := rfl
@[simp] theorem andThen_refused (r : Refusal) (k : State → Host.Outcome State Fault Refusal) :
    andThen (.refused r) k = .refused r := rfl

@[simp] theorem andThen_same (o : Host.Outcome State Fault Refusal) : andThen o .next = o := by
  cases o <;> rfl

/-- A sequence goes on exactly through a state of its first part. -/
theorem andThen_eq_next {o : Host.Outcome State Fault Refusal} {k : State → Host.Outcome State Fault Refusal} :
    andThen o k = .next t ↔ ∃ u, o = .next u ∧ k u = .next t := by
  cases o <;> simp [andThen]

@[simp] theorem runOps_nil : runOps [] s = .next s := rfl

theorem runOps_cons (i : Instr) (is : List Instr) : runOps (i :: is) s = andThen (exec i s) (runOps is) := rfl

@[simp] theorem runOps_one (i : Instr) : runOps [i] s = exec i s := andThen_same _

/-- The next edge, by what it presents. -/
theorem step_cons (h : s.edges = e :: rest) : step s = runEdge e { s with edges := rest } := by
  simp [step, runNextEdge, h]

theorem step_nil (h : s.edges = []) : step s = idle s := by
  simp [step, runNextEdge, h]

theorem runEdge_none (h : decodeEdge e = []) : runEdge e s = idle s := by
  simp [runEdge, h]

theorem runEdge_one {i : Instr} (h : decodeEdge e = [i]) : runEdge e s = exec i s := by
  simp [runEdge, h]

theorem runEdge_two {i j : Instr} (h : decodeEdge e = [i, j]) : runEdge e s = andThen (exec i s) (exec j) := by
  simp only [runEdge, h, runOps_cons]
  congr 1
  funext u
  exact andThen_same _

/-- An edge presents nothing, one operation, or an event and then a tick. -/
theorem decodeEdge_cases (e : Edge) :
    decodeEdge e = [] ∨ (∃ i, decodeEdge e = [i]) ∨ decodeEdge e = [decodeEvent e.evtData, .tick] := by
  obtain ⟨r, v, d, k⟩ := e
  cases r <;> cases v <;> cases k <;> simp [decodeEdge]

end Edges
end Sys2Proof.Machine
end

