-- ==== Sys2Proof/Laws/Envelope.lean ====
section
/-! SUPPORT. What a TICK does to one slot, and why no amplitude it writes wraps (10_state.md R22, R23): the lemmas the
envelope's laws cite instead of unfolding `tickVoice`. -/

namespace Sys2Proof.Machine

/-! ### Numbers (00_scope.md R15) -/

/-- A code inside Q4.28 is stored exactly. -/
theorem toInt_ofInt_of_fits {n : Int} (lo : -(2 ^ 31) ≤ n) (hi : n < 2 ^ 31) :
    (BitVec.ofInt 32 n : Amp).toInt = n := by
  rw [BitVec.toInt_ofInt]
  exact Int.bmod_eq_of_le (by omega) (by omega)

theorem toInt_ofNat_of_fits {n : Nat} (h : n < 2 ^ 31) : (BitVec.ofNat 32 n : Amp).toInt = n := by
  rw [← BitVec.ofInt_natCast]
  exact toInt_ofInt_of_fits (by omega) (by omega)

/-- The ramp inside the attack window stays below 2.0 (41_envelope_tick.md R111). -/
theorem attackCode_lt {c : Config} {k : Nat} (h : 10 * k < c.sampleRate) : attackCode c k < 2 ^ 29 := by
  unfold attackCode
  rw [Nat.div_lt_iff_lt_mul (by omega)]
  omega

@[simp] theorem attackCode_zero (c : Config) : attackCode c 0 = 0 := by simp [attackCode]

/-- The counter of a slot in attack is below `ceil(SR / 10)` (R110). -/
theorem lt_attackTicks_iff {c : Config} {k : Nat} : k < attackTicks c ↔ 10 * k < c.sampleRate := by
  unfold attackTicks
  omega

/-- What a decay step subtracts, within the bounds of a legal configuration (00_scope.md R11). -/
theorem decrement_bounds {c : Config} (h : legal c = true) (r : Bool) :
    c.decayStep.toInt ≤ decrement c r ∧ 1 ≤ decrement c r ∧ decrement c r ≤ 2 ^ 30 ∧
      decrement c r ≤ c.decayStep.toInt + c.releaseStep.toInt := by
  obtain ⟨-, -, h1, h2, h3⟩ := legal_iff.mp h
  unfold decrement
  cases r <;> simp <;> omega

/-! ### One slot (41_envelope_tick.md R112) -/

section Slot
variable {c : Config} {x : Voice}

theorem inAttack_iff : inAttack c x = true ↔ 10 * x.acnt.toNat < c.sampleRate ∧ x.released = false := by
  simp [inAttack]

theorem tickVoice_inactive (h : x.active = false) : tickVoice c x = x := if_pos h

theorem tickVoice_attack (ha : x.active = true) (h : inAttack c x = true) : tickVoice c x = attackVoice c x := by
  simp [tickVoice, ha, h]

theorem tickVoice_decay (ha : x.active = true) (h : inAttack c x = false) : tickVoice c x = decayVoice c x := by
  simp [tickVoice, ha, h]

/-- TICK writes `amp`, `acnt` and `active` alone (10_state.md R37). -/
theorem tickVoice_frame (c : Config) (x : Voice) : (tickVoice c x).note = x.note ∧ (tickVoice c x).freq = x.freq ∧
    (tickVoice c x).dcnt = x.dcnt ∧ (tickVoice c x).released = x.released := by
  unfold tickVoice
  split
  · simp
  · split <;> simp [attackVoice, decayVoice]

/-- The amplitude of the attack branch, exact. -/
theorem attackVoice_amp (h : inAttack c x = true) :
    (attackVoice c x).amp.toInt = attackCode c x.acnt.toNat :=
  toInt_ofNat_of_fits (lt_trans (attackCode_lt (inAttack_iff.mp h).1) (by norm_num))

/-- The counter of the attack branch, exact. -/
theorem attackVoice_acnt (hl : legal c = true) (h : inAttack c x = true) :
    (attackVoice c x).acnt.toNat = x.acnt.toNat + 1 := by
  have h1 := (inAttack_iff.mp h).1
  have h2 := (legal_iff.mp hl).2.1
  simp only [attackVoice, BitVec.toNat_ofNat]
  omega

/-- The amplitude of the decay branch, exact for a slot that meets R36. -/
theorem decayVoice_amp (hl : legal c = true) (hx : VoiceOk c x) (ha : x.active = true) :
    (decayVoice c x).amp.toInt = x.amp.toInt - decrement c x.released := by
  obtain ⟨-, -, hb, -⟩ := hx
  have := hb ha
  have := decrement_bounds hl x.released
  exact toInt_ofInt_of_fits (by omega) (by omega)

/-- A slot past the decay branch is active exactly when its amplitude is positive (R114). -/
theorem decayVoice_active : (decayVoice c x).active = true ↔ 0 < x.amp.toInt - decrement c x.released := by
  simp [decayVoice, activeAfterDecay]

end Slot

/-! ### R36 is kept slot by slot -/

/-- A slot after RESET meets R36 (10_state.md R35). -/
theorem voiceOk_reset (c : Config) : VoiceOk c Voice.reset := by
  simp [VoiceOk, Voice.reset]

/-- A slot just allocated meets R36 (40_voice_events.md R92). -/
theorem voiceOk_allocated (c : Config) (n : Note) : VoiceOk c (allocated n) := by
  simp [VoiceOk, allocated]

/-- NOTE_OFF keeps R36: it writes no field R36 reads (R93). -/
theorem voiceOk_releaseVoice {c : Config} {x : Voice} (n : Note) (h : VoiceOk c x) : VoiceOk c (releaseVoice n x) := h

/-- TICK keeps R36 (10_state.md R22, R23). -/
theorem voiceOk_tickVoice {c : Config} {x : Voice} (hl : legal c = true) (h : VoiceOk c x) :
    VoiceOk c (tickVoice c x) := by
  cases ha : x.active with
  | false => rwa [tickVoice_inactive ha]
  | true =>
    cases hk : inAttack c x with
    | true =>
      rw [tickVoice_attack ha hk]
      have hc := (inAttack_iff.mp hk).1
      have hm := attackVoice_amp hk
      have hn := attackVoice_acnt hl hk
      have hb := attackCode_lt hc
      have hlt := lt_attackTicks_iff.mpr hc
      refine ⟨h.1, by omega, fun _ => ⟨by omega, by omega⟩, fun hf => ?_⟩
      exact absurd (ha.symm.trans hf) (by simp)
    | false =>
      rw [tickVoice_decay ha hk]
      have hm := decayVoice_amp hl h ha
      have hd := decrement_bounds hl x.released
      have hb := h.2.2.1 ha
      have hact := decayVoice_active (c := c) (x := x)
      refine ⟨h.1, h.2.1, fun ht => ?_, fun hf => ?_⟩
      · have := hact.mp ht
        omega
      · by_contra hpos
        have : (decayVoice c x).active = true := hact.mpr (by omega)
        simp [hf] at this

end Sys2Proof.Machine
end

