-- ==== Sys2Proof/Laws/Exec.lean ====
section
/-! SUPPORT. What each operation does when it answers a next state, said once; that it then keeps the checks of
10_state.md R36; and what an edge and a run of edges do not touch. -/

namespace Sys2Proof.Machine

section Inversion
variable {s t : State}

/-- NOTE_ON answers one state (40_voice_events.md R92). -/
theorem execNoteOn_eq_next {n : Note} : execNoteOn n s = .next t ↔
    (legal s.cfg = true ∧ s.everReset = true ∧ consistent s = true) ∧
      (s.setVoice (select s).1 (allocated n)).setCursor (select s).2 = t := whenReady_eq_next

/-- NOTE_OFF answers one state (R93). -/
theorem execNoteOff_eq_next {n : Note} : execNoteOff n s = .next t ↔
    (legal s.cfg = true ∧ s.everReset = true ∧ consistent s = true) ∧ s.mapVoices (releaseVoice n) = t :=
  whenReady_eq_next

/-- EVT_IGNORED answers the state it was given (R94). -/
theorem execEvtIgnored_eq_next : execEvtIgnored s = .next t ↔
    (legal s.cfg = true ∧ s.everReset = true ∧ consistent s = true) ∧ s = t := whenReady_eq_next

/-- TICK answers one state (41_envelope_tick.md R112). -/
theorem execTick_eq_next : execTick s = .next t ↔
    (legal s.cfg = true ∧ s.everReset = true ∧ consistent s = true) ∧ s.mapVoices (tickVoice s.cfg) = t :=
  whenReady_eq_next

/-- RESET answers the state after RESET (70_reset_and_hazards.md R150). -/
theorem execReset_eq_next : execReset s = .next t ↔
    legal s.cfg = true ∧ State.resetWith s.cfg s.edges = t := whenConfigured_eq_next

end Inversion

/-- Every operation keeps the configuration and the host's schedule, and is past the first RESET when it is done. -/
theorem exec_own {i : Instr} {s t : State} (h : exec i s = .next t) :
    legal s.cfg = true ∧ t.cfg = s.cfg ∧ t.edges = s.edges ∧ t.everReset = true := by
  cases i with
  | noteOn _ n _ =>
    obtain ⟨⟨hl, hr, -⟩, rfl⟩ := execNoteOn_eq_next.mp h
    exact ⟨hl, rfl, rfl, hr⟩
  | noteOff _ n _ =>
    obtain ⟨⟨hl, hr, -⟩, rfl⟩ := execNoteOff_eq_next.mp h
    exact ⟨hl, rfl, rfl, hr⟩
  | evtIgnored _ _ =>
    obtain ⟨⟨hl, hr, -⟩, rfl⟩ := execEvtIgnored_eq_next.mp h
    exact ⟨hl, rfl, rfl, hr⟩
  | tick =>
    obtain ⟨⟨hl, hr, -⟩, rfl⟩ := execTick_eq_next.mp h
    exact ⟨hl, rfl, rfl, hr⟩
  | reset =>
    obtain ⟨hl, rfl⟩ := execReset_eq_next.mp h
    exact ⟨hl, rfl, rfl, rfl⟩

/-- Every operation leaves a state that meets R36. -/
theorem exec_consistent {i : Instr} {s t : State} (h : exec i s = .next t) : consistent t = true := by
  cases i with
  | noteOn _ n _ =>
    obtain ⟨⟨hl, -, hc⟩, rfl⟩ := execNoteOn_eq_next.mp h
    obtain ⟨hr, hv⟩ := consistent_iff.mp hc
    refine consistent_iff.mpr ⟨select_cursor_le hr, fun j => ?_⟩
    rw [setCursor_voice]
    by_cases hj : j = (select s).1
    · rw [hj, voice_setVoice_same]
      exact voiceOk_allocated _ _
    · rw [voice_setVoice_other s _ hj]
      exact hv j
  | noteOff _ n _ =>
    obtain ⟨⟨hl, -, hc⟩, rfl⟩ := execNoteOff_eq_next.mp h
    obtain ⟨hr, hv⟩ := consistent_iff.mp hc
    refine consistent_iff.mpr ⟨hr, fun j => ?_⟩
    rw [voice_mapVoices]
    exact voiceOk_releaseVoice n (hv j)
  | evtIgnored _ _ =>
    obtain ⟨⟨-, -, hc⟩, rfl⟩ := execEvtIgnored_eq_next.mp h
    exact hc
  | tick =>
    obtain ⟨⟨hl, -, hc⟩, rfl⟩ := execTick_eq_next.mp h
    obtain ⟨hr, hv⟩ := consistent_iff.mp hc
    refine consistent_iff.mpr ⟨hr, fun j => ?_⟩
    rw [voice_mapVoices]
    exact voiceOk_tickVoice hl (hv j)
  | reset =>
    obtain ⟨-, rfl⟩ := execReset_eq_next.mp h
    exact consistent_iff.mpr ⟨by simp, fun j => by rw [voice_resetWith]; exact voiceOk_reset _⟩

/-- The checks read nothing of the host's schedule. -/
@[simp] theorem consistent_withEdges (s : State) (es : List Edge) :
    consistent { s with edges := es } = consistent s := rfl

/-- `select` reads nothing of the host's schedule. -/
@[simp] theorem select_withEdges (s : State) (es : List Edge) : select { s with edges := es } = select s := rfl

end Sys2Proof.Machine
end

