-- ==== Sys2Proof/Laws/Edges.lean ====
section
/-! SUPPORT. No operation reads the host's schedule: an operation run under another schedule gives the same outcome, under
that schedule. With it, runs of edges become runs of operations. -/

namespace Sys2Proof.Machine

/-- The same outcome under another schedule. -/
def underSchedule (o : Host.Outcome State Fault Refusal) (es : List Edge) : Host.Outcome State Fault Refusal :=
  match o with
  | .next s => .next { s with edges := es }
  | .fault r => .fault r
  | .refused r => .refused r

@[simp] theorem underSchedule_next (s : State) (es : List Edge) :
    underSchedule (.next s) es = .next { s with edges := es } := rfl

theorem whenReady_withEdges (s t : State) (es : List Edge) :
    whenReady { s with edges := es } { t with edges := es } = underSchedule (whenReady s t) es := by
  unfold whenReady
  rw [consistent_withEdges]
  split_ifs <;> rfl

theorem exec_withEdges (i : Instr) (s : State) (es : List Edge) :
    exec i { s with edges := es } = underSchedule (exec i s) es := by
  cases i with
  | noteOn _ n _ => exact whenReady_withEdges s ((s.setVoice (select s).1 (allocated n)).setCursor (select s).2) es
  | noteOff _ n _ => exact whenReady_withEdges s (s.mapVoices (releaseVoice n)) es
  | evtIgnored _ _ => exact whenReady_withEdges s s es
  | tick => exact whenReady_withEdges s (s.mapVoices (tickVoice s.cfg)) es
  | reset =>
    simp only [exec, execReset, whenConfigured]
    split_ifs <;> rfl

theorem runOps_withEdges (is : List Instr) (s : State) (es : List Edge) :
    runOps is { s with edges := es } = underSchedule (runOps is s) es := by
  induction is generalizing s with
  | nil => rfl
  | cons i is ih =>
    rw [runOps_cons, runOps_cons, exec_withEdges]
    cases exec i s with
    | next t => exact ih t
    | fault _ => rfl
    | refused _ => rfl

@[simp] theorem steps_zero (s : State) : steps 0 s = .next s := rfl

theorem steps_succ (k : Nat) (s : State) : steps (k + 1) s = andThen (step s) (steps k) := rfl

/-- A run goes on where a shorter one ends. -/
theorem steps_add (j k : Nat) (s : State) : steps (j + k) s = andThen (steps j s) (steps k) := by
  induction j generalizing s with
  | zero => simp
  | succ j ih =>
    rw [Nat.succ_add, steps_succ, steps_succ]
    cases step s with
    | next t => exact ih t
    | fault _ => rfl
    | refused _ => rfl

/-- From a state that passes the three checks, every operation answers a next state that passes them. -/
theorem exec_ready (i : Instr) {s : State} (h : Ready s) : ∃ t, exec i s = .next t ∧ Ready t := by
  have hx : ∃ t, exec i s = .next t := by
    cases i with
    | reset => exact ⟨_, whenConfigured_legal h.1⟩
    | _ => exact ⟨_, whenReady_ready h⟩
  obtain ⟨t, ht⟩ := hx
  obtain ⟨hl, hc, -, hr⟩ := exec_own ht
  exact ⟨t, ht, hc ▸ hl, hr, exec_consistent ht⟩

/-- One tick from such a state: every slot by `tickVoice`, and nothing else. -/
theorem step_tickEdge {s : State} {rest : List Edge} (h : Ready s) (hs : s.edges = tickEdge :: rest) :
    ∃ t, step s = .next t ∧ Ready t ∧ t.edges = rest ∧ t.cfg = s.cfg ∧ t.rr = s.rr ∧
      ∀ j : Slot, t.voice j = tickVoice s.cfg (s.voice j) := by
  have h' : Ready { s with edges := rest } := h
  obtain ⟨t, ht, hr⟩ := exec_ready .tick h'
  obtain ⟨-, rfl⟩ := execTick_eq_next.mp ht
  refine ⟨_, ?_, hr, rfl, rfl, rfl, fun j => voice_mapVoices _ _ _⟩
  rw [step_cons hs, runEdge_one decodeEdge_tickEdge]
  exact ht

end Sys2Proof.Machine
end

