-- ==== Sys2Proof/Laws/PerInstr.lean ====
section
/-! SUPPORT. Facts about every operation as syntax, one lemma per constructor. -/

/-! Family `OneStrobe`: the encoder drives exactly one of the strobes `rst`, `evt_valid` and `tick` (30_encoding.md
R70, R80: the other inputs are 0 on that edge). -/

namespace Sys2Proof.Laws.OneStrobe

/-- Exactly one strobe is driven. -/
def Statement (i : Instr) : Prop :=
  [(encode i).rst, (encode i).evtValid, (encode i).tick].count true = 1

theorem noteOn (chan : BitVec 4) (note : Note) (vel : Byte) : Statement (.noteOn chan note vel) := rfl

theorem noteOff (chan : BitVec 4) (note : Note) (vel : Byte) : Statement (.noteOff chan note vel) := rfl

theorem evtIgnored (kind : BitVec 4) (rest : BitVec 20) : Statement (.evtIgnored kind rest) := rfl

theorem tick : Statement .tick := rfl

theorem reset : Statement .reset := rfl

end Sys2Proof.Laws.OneStrobe
end

