-- ==== Sys2Proof/Tests/Slice0.lean ====
section
/-! SUPPORT. Tests: every expected value is one of 95_test_vectors.md (named in each docstring) or written out by hand
from the rule named; then, for every obligation with hypotheses, a state and operands that meet all of them together. -/

namespace Sys2Proof.Tests
open Sys2Proof Sys2Proof.Machine

/-! ### Helpers -/

/-- Configurations T1 to T4 of 95_test_vectors.md. -/
def t1 : Config := { sampleRate := 100, decayStep := 0x01000000, releaseStep := 0x04000000 }
def t2 : Config := { sampleRate := 44100, decayStep := 0x4000, releaseStep := 0x10000 }
def t3 : Config := { sampleRate := 7, decayStep := 0x01000000, releaseStep := 0x04000000 }
def t4 : Config := { sampleRate := 100, decayStep := 0x07333333, releaseStep := 0x10000000 }

/-- A slot in the notation of 95_test_vectors.md. -/
def slot (note : Note) (freq : Hertz) (amp : Amp) (acnt : Counter) (active released : Bool) : Voice :=
  { note := note, freq := freq, amp := amp, acnt := acnt, dcnt := 0, active := active, released := released }

/-- The reset state with some slots and the cursor set. -/
def stateOf (c : Config) (rr : Cursor) (vs : List (Slot × Voice)) (es : List Edge) : State :=
  (vs.foldl (fun s p => s.setVoice p.1 p.2) (State.resetWith c es)).setCursor rr

/-- The state of an outcome, if it is a next state. -/
def nextOf : Host.Outcome State Fault Refusal → Option State
  | .next s => some s
  | .fault _ => none
  | .refused _ => none

/-- Slot `i` after an operation. -/
def after (i : Instr) (s : State) (k : Slot) : Option Voice := (nextOf (exec i s)).map fun t => t.voice k

/-- Slot `k` after one edge. -/
def afterEdge (s : State) (k : Slot) : Option Voice := (nextOf (step s)).map fun t => t.voice k

theorem next_of_isSome {o : Host.Outcome State Fault Refusal} (h : (nextOf o).isSome = true) : ∃ t, o = .next t := by
  cases o <;> simp [nextOf] at h ⊢

/-- The refusal of an outcome, if it is one. -/
def refusalOf : Host.Outcome State Fault Refusal → Option Refusal
  | .next _ => none
  | .fault _ => none
  | .refused r => some r

theorem refused_of_refusalOf {o : Host.Outcome State Fault Refusal} {r : Refusal} (h : refusalOf o = some r) :
    o = .refused r := by
  cases o <;> simp_all [refusalOf]

/-! ### Well-formedness: an ill-formed term for each check -/

theorem test_ignored_kind_9_is_ill_formed : (Instr.evtIgnored 0x9 0).wellFormed = false := by decide
theorem test_ignored_kind_8_is_ill_formed : (Instr.evtIgnored 0x8 0).wellFormed = false := by decide

/-! ### Decoding: words written out from 30_encoding.md section 4, `kind chan note velocity` -/

theorem test_decode_noteOn : decodeEvent 0b100100000100010101111111 = .noteOn 0 69 0x7F := by decide
theorem test_decode_noteOff : decodeEvent 0b100010100011110000000001 = .noteOff 10 60 1 := by decide
theorem test_decode_ignored : decodeEvent 0b101111110111101100000000 = .evtIgnored 0xB 0xF7B00 := by decide
theorem test_decode_tick : decodeEdge { tick := true } = [.tick] := by decide
theorem test_decode_reset_wins :
    decodeEdge { rst := true, evtValid := true, evtData := 0x90457F, tick := true } = [.reset] := by decide
theorem test_decode_incomplete_word : decodeBytes [0x90, 0x45] = .error (.incompleteWord 2) := rfl
theorem test_table_word_noteOn : decodeTableWord 24 0x903C7F = some (.noteOn 0 60 0x7F) := by decide
theorem test_table_word_of_a_strobe : decodeTableWord 32 0x1000000 = some .tick ∧
    decodeTableWord 32 0x2000000 = some .reset := by decide

/-! ### FREQ and ATT (95_test_vectors.md V2, V7) -/

theorem test_freq_values : [0, 9, 21, 31, 60, 69, 127, 128, 255].map (fun n => freqHertz (BitVec.ofNat 8 n)) =
    [8, 13, 27, 48, 261, 440, 12543, 13289, 20390018] := by decide
theorem test_attack_values : [0, 1, 2204, 2205, 4409].map (attackCode t2) =
    [0, 121739, 268313716, 268435456, 536749172] := by decide

/-! ### One operation (95_test_vectors.md V4, V5, V6, V8, V10) -/

/-- V4, row 2: an active released slot is taken, and its amplitude restarts at 0. -/
theorem test_noteOn_takes_released_slot :
    after (.noteOn 0 72 0x7F)
      (stateOf t1 2 [(0, slot 60 261 214748364 5 true true), (1, slot 64 329 0 0 true false)] []) 0 =
    some (slot 72 523 0 0 true false) := by decide

/-- V3, row 2: at `rr = 9` slot 9 is taken and the cursor wraps to 0. -/
theorem test_noteOn_cursor_wraps :
    (nextOf (exec (.noteOn 0 48 0x7F) (stateOf t1 9 [] []))).map (fun t => (t.voice 9, t.rr)) =
    some (slot 48 130 0 0 true false, 0) := by decide

/-- V5, row 5: an inactive slot whose stale note matches is marked released. -/
theorem test_noteOff_marks_inactive_slot :
    after (.noteOff 0 60 0) (stateOf t1 0 [(3, slot 60 261 (-3355444) 10 false false)] []) 3 =
    some (slot 60 261 (-3355444) 10 false true) := by decide

/-- V5, row 2: `active` and every other field stay. -/
theorem test_noteOff_keeps_active :
    after (.noteOff 0 62 0) (stateOf t1 2 [(1, slot 62 293 53687091 2 true false)] []) 1 =
    some (slot 62 293 53687091 2 true true) := by decide

/-- V6, row 1. -/
theorem test_evtIgnored_changes_nothing :
    nextOf (exec (.evtIgnored 0xB 0x07B00) (stateOf t1 3 [(1, slot 62 293 53687091 2 true false)] [])) =
    some (stateOf t1 3 [(1, slot 62 293 53687091 2 true false)] []) := by decide

/-- V8, row 4: release decay below zero deactivates, with no clamp. -/
theorem test_tick_release_deactivates :
    after .tick (stateOf t1 0 [(0, slot 60 261 77175193 4 true true)] []) 0 =
    some (slot 60 261 (-6710887) 4 false true) := by decide

/-- V8, row 6: an amplitude of exactly 0 deactivates. -/
theorem test_tick_exact_zero_deactivates :
    after .tick (stateOf t4 0 [(0, slot 60 261 120795955 10 true false)] []) 0 =
    some (slot 60 261 0 10 false false) := by decide

/-- V10: from a state no check holds of. -/
theorem test_reset_from_any_state :
    nextOf (exec .reset { stateOf t1 12 [(0, slot 60 261 (-5) 999 true true)] [] with everReset := false }) =
    some (State.resetWith t1 []) := by decide

/-! ### One edge (95_test_vectors.md V8 row 7, V9) -/

/-- V8, row 7 (T3): the window is over after one tick. -/
theorem test_edge_tick_short_window :
    afterEdge (stateOf t3 1 [(0, slot 60 261 0 1 true false)] [tickEdge]) 0 =
    some (slot 60 261 (-16777216) 1 false false) := by decide

/-- V9, row 1: allocated, then its first tick. -/
theorem test_edge_noteOn_and_tick :
    afterEdge (State.resetWith t1 [evtTickEdge 0x903C7F]) 0 = some (slot 60 261 0 1 true false) := by decide

/-- V9, row 2: released first, so the tick decays. -/
theorem test_edge_noteOff_and_tick :
    afterEdge (stateOf t1 1 [(0, slot 60 261 53687091 2 true false)] [evtTickEdge 0x803C00]) 0 =
    some (slot 60 261 (-30198989) 2 false true) := by decide

/-- The host's placing of a word, from reset: the very next step runs it. -/
theorem test_fetch_word_runs_first :
    afterEdge (State.reset.withFetchWord 24 0x90457F) 0 = some (slot 69 440 0 0 true false) := by decide

/-! ### Witnesses: states and operands that meet the hypotheses of each obligation -/

/-- Slot 0 in attack, slot 1 in decay, slot 2 released and sounding, slot 3 deactivated and released. -/
def mixed (es : List Edge) : State :=
  stateOf t1 9 [(0, slot 60 261 53687091 2 true false), (1, slot 64 329 483183820 10 true false),
    (2, slot 65 349 161061273 4 true true), (3, slot 67 391 (-6710887) 4 false true)] es

/-- No slot released; slot 0 just allocated, slot 1 in decay, slot 2 deactivated. -/
def unreleased (rr : Cursor) (es : List Edge) : State :=
  stateOf t1 rr [(0, slot 60 261 0 0 true false), (1, slot 64 329 483183820 10 true false),
    (2, slot 67 391 (-6710887) 10 false false)] es

theorem mixed_ready : Ready (mixed []) := by decide
theorem unreleased_ready : Ready (unreleased 9 []) := by decide

theorem mixed_inv (es : List Edge) : EnvelopeInv (mixed es) := by
  have h : EnvelopeInv (mixed []) := by
    refine ⟨mixed_ready, fun i => ?_⟩
    constructor <;> revert i <;> decide
  exact h

theorem witness_DecodeEncodeRoundTrip : (Instr.evtIgnored 0xF 0xFFFFF).wellFormed = true ∧
    (Instr.noteOn 15 255 0).wellFormed = true := by decide

theorem witness_DecodeReadsEachFieldFromItsBits :
    (0x9FFFFF : EventWord).toNat / 2 ^ 20 = 9 ∧ (0x800000 : EventWord).toNat / 2 ^ 20 = 8 ∧
    (0x7FFFFF : EventWord).toNat / 2 ^ 20 ≠ 9 ∧ (0x7FFFFF : EventWord).toNat / 2 ^ 20 ≠ 8 ∧
    (0xA00000 : EventWord).toNat / 2 ^ 20 ≠ 9 ∧ (0xA00000 : EventWord).toNat / 2 ^ 20 ≠ 8 := by decide

theorem witness_EventBytesStatusFirst :
    (0x9F3C00 : EventWord).toNat = (0x9F : Byte).toNat * 2 ^ 16 + (0x3C : Byte).toNat * 2 ^ 8 + (0 : Byte).toNat ∧
    ([0x90, 0x45] : List Byte).length < 3 := by decide

theorem witness_StepRunsDecodedInstruction : ∃ (s : State) (i : Instr) (rest : List Edge),
    i.wellFormed = true ∧ s.edges = encode i :: rest :=
  ⟨mixed [encode (.noteOff 0 60 0), tickEdge], .noteOff 0 60 0, [tickEdge], rfl, rfl⟩

theorem witness_EdgeAppliesEventThenTick :
    (∃ s : State, s.edges = [rstEdge]) ∧ rstEdge.rst = true ∧
    ((evtEdge 0).rst = false ∧ (evtEdge 0).evtValid = true ∧ (evtEdge 0).tick = false) ∧
    (tickEdge.rst = false ∧ tickEdge.evtValid = false ∧ tickEdge.tick = true) ∧
    ((evtTickEdge 0).rst = false ∧ (evtTickEdge 0).evtValid = true ∧ (evtTickEdge 0).tick = true ∧
      (∃ s1, exec (decodeEvent (evtTickEdge 0).evtData) (mixed []) = .next s1) ∧
      exec (decodeEvent (evtTickEdge 0).evtData) { mixed [] with everReset := false } = .refused .beforeFirstReset) ∧
    (({} : Edge).rst = false ∧ ({} : Edge).evtValid = false ∧ ({} : Edge).tick = false ∧
      legal (mixed [{}]).cfg = true) :=
  ⟨⟨mixed [rstEdge], rfl⟩, rfl, by decide, by decide,
    ⟨rfl, rfl, rfl, next_of_isSome (by decide), refused_of_refusalOf (by decide)⟩,
    by decide⟩

theorem witness_IdleHostHoldsState : legal (mixed []).cfg = true ∧ (mixed []).edges = [] := by decide

theorem witness_RunIsLeftToRightComposition :
    (∀ i ∈ [Instr.noteOn 0 60 1, Instr.tick, Instr.reset], i.wellFormed = true) ∧
    (mixed ([Instr.noteOn 0 60 1, Instr.tick, Instr.reset].map encode ++ [])).edges =
      [Instr.noteOn 0 60 1, Instr.tick, Instr.reset].map encode ++ [] ∧
    (mixed [rstEdge, tickEdge]).cfg = (State.resetWith t1 [rstEdge, tickEdge]).cfg ∧
    (mixed [rstEdge, tickEdge]).edges = rstEdge :: [tickEdge] := by decide

theorem witness_ChannelAndVelocityAreNotRead :
    (0x90457F : EventWord).toNat / 2 ^ 20 = (0x9F4500 : EventWord).toNat / 2 ^ 20 ∧
    (0x90457F : EventWord).toNat / 2 ^ 8 % 2 ^ 8 = (0x9F4500 : EventWord).toNat / 2 ^ 8 % 2 ^ 8 := by decide

theorem witness_NoteOperandIsAllEightBits :
    (Ready (mixed [evtEdge 0x90FF40]) ∧ (0x90FF40 : EventWord).toNat / 2 ^ 20 = 9) ∧
    (Ready (mixed [evtEdge 0x80FF00]) ∧ (0x80FF00 : EventWord).toNat / 2 ^ 20 = 8) := by decide

theorem witness_IgnoredKindsChangeNothing :
    (Ready (mixed [evtEdge 0x7FFFFF]) ∧ (0x7FFFFF : EventWord).toNat / 2 ^ 20 ≤ 7) ∧
    (Ready (mixed [evtEdge 0xA00000]) ∧ 10 ≤ (0xA00000 : EventWord).toNat / 2 ^ 20) := by decide

theorem witness_ResetCompletes : legal (mixed []).cfg = true ∧ (mixed []).rr ≠ 0 := by decide

theorem witness_StateResetIsTheStateAfterReset :
    (stateOf Config.reference 4 [(0, slot 60 261 0 0 true false)] []).cfg = State.reset.cfg ∧
    (stateOf Config.reference 4 [(0, slot 60 261 0 0 true false)] []).edges = [] := by decide

theorem witness_NoteOnTakesLowestReleasedSlot : Ready (mixed []) ∧ ((mixed []).voice 2).released = true ∧
    ∀ j : Slot, j < 2 → ((mixed []).voice j).released = false := by decide

theorem witness_NoteOnTakesCursorSlot : Ready (unreleased 9 []) ∧
    (∀ j : Slot, ((unreleased 9 []).voice j).released = false) ∧ (9 : Slot).val = (unreleased 9 []).rr.toNat := by decide

theorem witness_CursorRule :
    (∃ t, exec .reset (mixed []) = .next t) ∧
    ((∃ t, exec (.noteOn 0 60 1) (unreleased 9 []) = .next t) ∧
      ∀ j : Slot, ((unreleased 9 []).voice j).released = false) ∧
    ((∃ t, exec (.noteOn 0 60 1) (mixed []) = .next t) ∧ ∃ j : Slot, ((mixed []).voice j).released = true) ∧
    (∃ t, exec .tick (mixed []) = .next t) :=
  ⟨next_of_isSome (by decide), ⟨next_of_isSome (by decide), by decide⟩, ⟨next_of_isSome (by decide), by decide⟩,
    next_of_isSome (by decide)⟩

theorem witness_FreqIsExactFloor :
    (∃ hertz : Note → ℝ, ∀ n, hertz n = (440 / 32 : ℝ) * 2 ^ (((n.toNat : ℝ) - 9) / 12)) ∧
    (69 : Note).toNat = 33 + 12 * 3 :=
  ⟨⟨_, fun _ => rfl⟩, rfl⟩

/-- A note of `FreqIsExactFloor`'s last two clauses: at n = 21 the exact value is 27.5, which is no integer. -/
theorem witness_FreqIsExactFloor_not_an_integer :
    ¬ ∃ m : ℤ, (440 / 32 : ℝ) * 2 ^ ((((21 : Note).toNat : ℝ) - 9) / 12) = m := by
  rintro ⟨m, hm⟩
  have h21 : (((21 : Note).toNat : ℝ) - 9) / 12 = 1 := by
    rw [show (21 : Note).toNat = 21 from rfl]
    norm_num
  rw [h21, Real.rpow_one] at hm
  have h55 : ((55 : ℤ) : ℝ) = ((2 * m : ℤ) : ℝ) := by
    push_cast
    linarith
  have := Int.cast_injective h55
  omega

theorem witness_EleventhNoteOnOverwritesSlotZero : legal t1 = true ∧ legal t2 = true ∧ legal t3 = true ∧
    legal t4 = true ∧ legal Config.reference = true := by decide

/-- The configurations at the edges of 00_scope.md R11 that are legal, beside some that are not. -/
theorem test_legal_boundaries :
    legal { sampleRate := 1, decayStep := 1, releaseStep := 2 } = true ∧
    legal { sampleRate := 2 ^ 24, decayStep := 0x1FFFFFFF, releaseStep := 0x20000001 } = true ∧
    legal { sampleRate := 0, decayStep := 1, releaseStep := 2 } = false ∧
    legal { sampleRate := 2 ^ 24 + 1, decayStep := 1, releaseStep := 2 } = false ∧
    legal { sampleRate := 1, decayStep := 0, releaseStep := 2 } = false ∧
    legal { sampleRate := 1, decayStep := 2, releaseStep := 2 } = false ∧
    legal { sampleRate := 1, decayStep := 0x20000000, releaseStep := 0x20000001 } = false := by decide

theorem witness_NoteOffReleasesEveryMatch : Ready (mixed []) ∧ ((mixed []).voice 1).note = 64 ∧
    ((mixed []).voice 0).note ≠ 64 := by decide

theorem witness_NoteOffZeroAfterReset : legal t3 = true := by decide

/-- Slot 2 is deactivated: the release marks it by its stale note (70_reset_and_hazards.md R157). -/
theorem witness_ReleasedSlotIsReusedFirst : ∃ s : State, Ready s ∧ (∀ j : Slot, (s.voice j).released = false) ∧
    (s.voice 2).note = 67 ∧ (∀ j : Slot, j ≠ 2 → (s.voice j).note ≠ 67) ∧
    s.edges = encode (.noteOff 0 67 0) :: (List.replicate 3 tickEdge ++ encode (.noteOn 1 70 5) :: []) :=
  ⟨unreleased 5 (encode (.noteOff 0 67 0) :: (List.replicate 3 tickEdge ++ [encode (.noteOn 1 70 5)])), by decide⟩

theorem witness_EvtIgnoredCompletes : Ready (mixed [tickEdge]) := by decide

theorem witness_TickAttackBranch : Ready (mixed []) ∧ ((mixed []).voice 0).active = true ∧
    ((mixed []).voice 0).released = false ∧ 10 * ((mixed []).voice 0).acnt.toNat < (mixed []).cfg.sampleRate := by decide

/-- Slot 1 is past the window, at its first such counter value; slot 2 is released inside it. -/
theorem witness_TickDecayBranch : Ready (mixed []) ∧
    (((mixed []).voice 1).active = true ∧ ((mixed []).voice 1).released = false ∧
      ¬ (10 * ((mixed []).voice 1).acnt.toNat < (mixed []).cfg.sampleRate ∧ ((mixed []).voice 1).released = false)) ∧
    (((mixed []).voice 2).active = true ∧ ((mixed []).voice 2).released = true ∧
      ¬ (10 * ((mixed []).voice 2).acnt.toNat < (mixed []).cfg.sampleRate ∧ ((mixed []).voice 2).released = false)) := by
  decide

theorem witness_TickDeactivation : Ready (mixed []) ∧ ((mixed []).voice 3).active = false ∧
    ((mixed []).voice 2).active = true ∧ ((mixed []).voice 0).active = true := by decide

theorem witness_TickSlotsAreIndependent : Ready (mixed []) ∧ Ready (unreleased 3 [tickEdge]) ∧
    (mixed []).cfg = (unreleased 3 [tickEdge]).cfg ∧ (mixed []).voice 1 = (unreleased 3 [tickEdge]).voice 1 := by decide

theorem witness_AccessMatrixFrame :
    (∃ t, exec (.noteOn 0 60 1) (mixed []) = .next t) ∧ (∃ t, exec (.noteOff 0 64 1) (mixed []) = .next t) ∧
    (∃ t, exec (.evtIgnored 0 0) (mixed []) = .next t) ∧ (∃ t, exec .tick (mixed []) = .next t) ∧
    (∃ t, exec .reset (mixed []) = .next t) :=
  ⟨next_of_isSome (by decide), next_of_isSome (by decide), next_of_isSome (by decide), next_of_isSome (by decide),
    next_of_isSome (by decide)⟩

/-- One state for each case of 60_exceptions.md R131; the third fails R36 by its cursor alone. -/
theorem witness_OperationsRefusedInThreeCases :
    legal { t1 with sampleRate := 0 } = false ∧
    (legal (mixed []).cfg = true ∧ ({ mixed [] with everReset := false } : State).everReset = false ∧
      Instr.tick ≠ .reset) ∧
    (legal (mixed []).cfg = true ∧ (mixed []).everReset = true ∧ consistent { mixed [] with rr := 10 } = false) := by
  decide

theorem witness_StepRefusesOnlyInThreeCases :
    (∃ s : State, step s = .refused .illegalConfiguration) ∧ (∃ s : State, step s = .refused .beforeFirstReset) ∧
    (∃ s : State, step s = .refused .unreachableState) :=
  ⟨⟨State.resetWith { t1 with sampleRate := 0 } [tickEdge], refused_of_refusalOf (by decide)⟩,
    ⟨{ mixed [tickEdge] with everReset := false }, refused_of_refusalOf (by decide)⟩,
    ⟨{ mixed [tickEdge] with rr := 10 }, refused_of_refusalOf (by decide)⟩⟩

/-- Two different states that agree in the exported fields: they differ in the cursor. -/
theorem witness_OutputPortsShowTheState : mixed [] ≠ (mixed []).setCursor 0 ∧
    ∀ j : Slot, { (mixed []).voice j with dcnt := 0 } = { ((mixed []).setCursor 0).voice j with dcnt := 0 } := by decide

theorem witness_ResetMeetsInvariant : legal Config.reference = true := by decide

theorem witness_StepKeepsInvariant : ∃ s t : State, EnvelopeInv s ∧ step s = .next t :=
  have ⟨t, h⟩ := next_of_isSome (o := step (mixed [evtTickEdge 0x803C00])) (by decide)
  ⟨mixed [evtTickEdge 0x803C00], t, mixed_inv _, h⟩

/-- A reachable state with a voice in it: RESET, then NOTE_ON. -/
theorem witness_ReachableStates : ∃ s : State, Reachable s ∧ (s.voice 0).active = true := by
  obtain ⟨t, h⟩ := next_of_isSome (o := step (State.resetWith t1 [evtEdge 0x903C7F])) (by decide)
  refine ⟨t, .step _ _ (.reset t1 _ (by decide)) h, ?_⟩
  have h0 : afterEdge (State.resetWith t1 [evtEdge 0x903C7F]) 0 = some (slot 60 261 0 0 true false) := by decide
  rw [afterEdge, h] at h0
  have hv : t.voice 0 = slot 60 261 0 0 true false := Option.some.inj h0
  rw [hv]
  rfl

theorem witness_ReachableStatesMeetTheBounds : ∃ s : State, Reachable s := witness_ReachableStates.imp fun _ => And.left

theorem witness_ReachableStatesNeverStop : ∃ s : State, Reachable s := witness_ReachableStates.imp fun _ => And.left

theorem witness_StepFromReadyCompletesReady : Ready (mixed [evtTickEdge 0x803C00]) := by decide

theorem witness_ConfigurationNeverChanges :
    ∃ t, steps 2 (State.resetWith t1 [evtEdge 0x903C7F, tickEdge]) = .next t := next_of_isSome (by decide)

theorem witness_AttackStrictlyIncreases : ∃ s : State, Ready s ∧ (s.voice 0).active = true ∧
    (s.voice 0).released = false ∧ 10 * ((s.voice 0).acnt.toNat + 1) < s.cfg.sampleRate ∧
    s.edges = tickEdge :: tickEdge :: [] := ⟨mixed [tickEdge, tickEdge], by decide⟩

theorem witness_DecayStrictlyDecreases : Ready (mixed []) ∧ ((mixed []).voice 1).active = true ∧
    ¬ (10 * ((mixed []).voice 1).acnt.toNat < (mixed []).cfg.sampleRate ∧ ((mixed []).voice 1).released = false) := by
  decide

theorem witness_UnreleasedLifetime : ∃ (s : State) (A L : Nat), Ready s ∧ (s.voice 0).active = true ∧
    (s.voice 0).released = false ∧ (s.voice 0).amp = 0 ∧ (s.voice 0).acnt = 0 ∧
    A = ⌈(s.cfg.sampleRate : ℚ) / 10⌉₊ ∧
    L = ⌊(20 * ((A : ℚ) - 1) * 2 ^ 28) / (s.cfg.sampleRate : ℚ)⌋₊ ∧
    s.edges = List.replicate 39 tickEdge ++ [] :=
  ⟨unreleased 1 (List.replicate 39 tickEdge), _, _, by decide, by decide, by decide, by decide, by decide, rfl, rfl,
    by decide⟩

theorem witness_ReleasedLifetime : ∃ s : State, Ready s ∧ (s.voice 2).active = true ∧ (s.voice 2).released = true ∧
    s.edges = List.replicate 2 tickEdge ++ [rstEdge] := ⟨mixed (List.replicate 2 tickEdge ++ [rstEdge]), by decide⟩

theorem witness_AttackExceedsOne : legal t2 = true ∧ t2.sampleRate = 44100 := by decide

theorem witness_AttackTickCount : ∃ s : State, Ready s ∧ (s.voice 0).active = true ∧ (s.voice 0).released = false ∧
    (s.voice 0).acnt = 0 ∧ s.edges = List.replicate 11 tickEdge ++ [] :=
  ⟨unreleased 1 (List.replicate 11 tickEdge), by decide⟩

theorem witness_FirstTicksOfAVoice :
    (∃ s : State, Ready s ∧ s.edges = encode (.noteOn 0 60 1) :: tickEdge :: tickEdge :: []) ∧
    (∃ s : State, Ready s ∧ s.edges = encode (.noteOn 0 60 1) :: encode (.noteOff 1 60 0) :: tickEdge :: []) :=
  ⟨⟨mixed [encode (.noteOn 0 60 1), tickEdge, tickEdge], by decide⟩,
    ⟨mixed [encode (.noteOn 0 60 1), encode (.noteOff 1 60 0), tickEdge], by decide⟩⟩

/-- A power-on state that no check holds of but the configuration's. -/
theorem witness_SessionRunsFromPowerOn : ∃ s : State, legal s.cfg = true ∧ s.everReset = false ∧
    s.edges = sessionEdges 1 [⟨[0x903C7F, 0x904048], true⟩, ⟨[], false⟩] :=
  ⟨{ mixed (sessionEdges 1 [⟨[0x903C7F, 0x904048], true⟩, ⟨[], false⟩]) with everReset := false, rr := 15 }, by decide⟩

end Sys2Proof.Tests
end

/-! PROOFS. The round-robin cursor (10_state.md R29): which operations write it and which read it. -/

namespace Sys2Proof.Machine

section Cursor
variable {s t : State} {n : Note} {r : Cursor}

/-- If some slot is released, the scan finds one. -/
theorem exists_lowestReleased (h : ∃ j : Slot, (s.voice j).released = true) : ∃ k, lowestReleased s = some k := by
  obtain ⟨j, hj⟩ := h
  cases hk : lowestReleased s with
  | none => simp [(lowestReleased_eq_none s).mp hk j] at hj
  | some k => exact ⟨k, rfl⟩

/-- With some slot released, `select` answers the same slot whatever the cursor is, and the cursor itself (R90). -/
theorem select_withRr (h : ∃ j : Slot, (s.voice j).released = true) :
    ∃ k, ∀ r : Cursor, select { s with rr := r } = (k, r) := by
  obtain ⟨k, hk⟩ := exists_lowestReleased h
  obtain ⟨hrel, hlow⟩ := lowestReleased_spec hk
  exact ⟨k, fun r => select_released (s := { s with rr := r }) hrel hlow⟩

/-- Any cursor in 0 to 9 meets the checks of R36 where another does. -/
theorem consistent_withRr (hr : r.toNat ≤ 9) (hs : consistent s = true) : consistent { s with rr := r } = true :=
  consistent_iff.mpr ⟨hr, (consistent_iff.mp hs).2⟩

/-- NOTE_ON with no slot released advances the cursor modulo 10 (R29, R90). -/
theorem execNoteOn_rr_of_unreleased (h : execNoteOn n s = .next t) (hu : ∀ j : Slot, (s.voice j).released = false) :
    t.rr.toNat = (s.rr.toNat + 1) % 10 := by
  obtain ⟨-, rfl⟩ := execNoteOn_eq_next.mp h
  rw [setCursor_rr, select_unreleased hu]
  exact nextCursor_toNat s.rr

/-- NOTE_ON with some slot released does not read the cursor: it takes the same slot under every cursor in 0 to 9, and
leaves that cursor as it is. -/
theorem execNoteOn_withRr_of_released (h : execNoteOn n s = .next t)
    (hrel : ∃ j : Slot, (s.voice j).released = true) (hr : r.toNat ≤ 9) :
    execNoteOn n { s with rr := r } = .next { t with rr := r } := by
  obtain ⟨⟨hl, he, hc⟩, rfl⟩ := execNoteOn_eq_next.mp h
  obtain ⟨k, hk⟩ := select_withRr hrel
  refine execNoteOn_eq_next.mpr ⟨⟨hl, he, consistent_withRr hr hc⟩, ?_⟩
  have hs : select s = (k, s.rr) := hk s.rr
  rw [hs, hk r]
  rfl

/-- NOTE_ON with some slot released leaves the cursor. -/
theorem execNoteOn_rr_of_released (h : execNoteOn n s = .next t)
    (hrel : ∃ j : Slot, (s.voice j).released = true) : t.rr = s.rr := by
  obtain ⟨-, rfl⟩ := execNoteOn_eq_next.mp h
  obtain ⟨k, hk⟩ := select_withRr hrel
  exact congrArg Prod.snd (hk s.rr)

/-- NOTE_OFF, EVT_IGNORED and TICK do not write the cursor. -/
theorem exec_rr {i : Instr} (h : exec i s = .next t) (hreset : i ≠ .reset)
    (hon : ∀ chan n vel, i ≠ .noteOn chan n vel) : t.rr = s.rr := by
  cases i with
  | noteOn chan n vel => exact absurd rfl (hon chan n vel)
  | reset => exact absurd rfl hreset
  | noteOff _ _ _ =>
    obtain ⟨-, rfl⟩ := execNoteOff_eq_next.mp h
    rfl
  | evtIgnored _ _ =>
    obtain ⟨-, rfl⟩ := execEvtIgnored_eq_next.mp h
    rfl
  | tick =>
    obtain ⟨-, rfl⟩ := execTick_eq_next.mp h
    rfl

end Cursor

/-- Settles O19: the bound is one of the checks of R36, which every operation keeps; the rest is one lemma per clause. -/
theorem cursorRule : Obligations.CursorRule := by
  unfold Obligations.CursorRule
  intro i s t h
  refine ⟨(consistent_iff.mp (exec_consistent h)).1, ?_, ?_, exec_rr h⟩
  · rintro rfl
    obtain ⟨-, rfl⟩ := execReset_eq_next.mp h
    rfl
  · rintro chan n vel rfl
    exact ⟨execNoteOn_rr_of_unreleased h, fun hrel =>
      ⟨execNoteOn_rr_of_released h hrel, fun _ hr => execNoteOn_withRr_of_released h hrel hr⟩⟩

end Sys2Proof.Machine

/-! PROOFS. Runs of edges that present one operation each (20_memory.md R56). -/

namespace Sys2Proof.Machine

/-- The edge that presents a well-formed operation decodes to that operation alone (30_encoding.md R71, R72). -/
theorem decodeEdge_encode {i : Instr} (h : i.wellFormed = true) : decodeEdge (encode i) = [i] := by
  cases i with
  | noteOn chan n vel => simp [encode, decodeEvent_on]
  | noteOff chan n vel => simp [encode, decodeEvent_off]
  | evtIgnored kind bits =>
    obtain ⟨h9, h8⟩ : kind ≠ 0x9 ∧ kind ≠ 0x8 := by simpa [Instr.wellFormed, ignoredKind] using h
    have hk := eventKind_kindWord kind bits
    rw [encode, decodeEdge_evtEdge, decodeEvent_ignored (hk.symm ▸ h9) (hk.symm ▸ h8), hk, eventRest_kindWord]
  | tick => rfl
  | reset => rfl

/-- When the next edge presents one well-formed operation, the step is that operation's effect, with the edge taken. -/
theorem step_encode {i : Instr} {s : State} {rest : List Edge} (h : i.wellFormed = true)
    (hs : s.edges = encode i :: rest) : step s = exec i { s with edges := rest } := by
  rw [step_cons hs, runEdge_one (decodeEdge_encode h)]

/-- A run over the edges of well-formed operations is the run of the operations: each leaves the schedule to the next
one unread. -/
theorem steps_encode {is : List Instr} {s : State} {rest : List Edge} (hwf : ∀ i ∈ is, i.wellFormed = true)
    (hs : s.edges = is.map encode ++ rest) : steps is.length s = runOps is { s with edges := rest } := by
  induction is generalizing s with
  | nil =>
    obtain rfl : s.edges = rest := hs
    rfl
  | cons i is ih =>
    obtain ⟨hi, his⟩ := List.forall_mem_cons.mp hwf
    rw [List.length_cons, steps_succ, step_encode (rest := is.map encode ++ rest) hi hs, runOps_cons,
      exec_withEdges i s (is.map encode ++ rest), exec_withEdges i s rest]
    cases exec i s with
    | next t => exact ih (s := { t with edges := is.map encode ++ rest }) his rfl
    | fault _ => rfl
    | refused _ => rfl

/-- A RESET edge leaves nothing of the state but the configuration and the rest of the schedule (70_reset_and_hazards.md
R150). -/
theorem step_rstEdge_congr {s s' : State} {rest : List Edge} (hc : s.cfg = s'.cfg) (hs : s.edges = rstEdge :: rest)
    (hs' : s'.edges = rstEdge :: rest) : step s = step s' := by
  rw [step_cons hs, step_cons hs', runEdge_one decodeEdge_rstEdge, runEdge_one decodeEdge_rstEdge]
  simp only [exec, execReset, whenConfigured, hc]

/-- Settles O11: composition by induction on the operations; runs that begin with RESET agree after its edge, and so at
every later one. -/
theorem runIsLeftToRightComposition : Obligations.RunIsLeftToRightComposition := by
  unfold Obligations.RunIsLeftToRightComposition
  refine ⟨fun _ _ _ hwf hs => steps_encode hwf hs, fun s s' rest k hc hs hs' => ?_⟩
  rw [steps_succ, steps_succ, step_rstEdge_congr hc hs hs']

end Sys2Proof.Machine

/-! PROOFS. One edge by its strobes (30_encoding.md R77), and the step an event word gives by its kind and its note
(R75, R78). -/

namespace Sys2Proof.Machine

section Strobes
variable {e : Edge}

/-- What an edge presents, by its strobes. -/
theorem decodeEdge_of_rst (hr : e.rst = true) : decodeEdge e = [.reset] := by
  simp [decodeEdge, hr]

theorem decodeEdge_of_event (hr : e.rst = false) (hv : e.evtValid = true) (ht : e.tick = false) :
    decodeEdge e = [decodeEvent e.evtData] := by
  simp [decodeEdge, hr, hv, ht]

theorem decodeEdge_of_tick (hr : e.rst = false) (hv : e.evtValid = false) (ht : e.tick = true) :
    decodeEdge e = [.tick] := by
  simp [decodeEdge, hr, hv, ht]

theorem decodeEdge_of_event_tick (hr : e.rst = false) (hv : e.evtValid = true) (ht : e.tick = true) :
    decodeEdge e = [decodeEvent e.evtData, .tick] := by
  simp [decodeEdge, hr, hv, ht]

theorem decodeEdge_of_none (hr : e.rst = false) (hv : e.evtValid = false) (ht : e.tick = false) :
    decodeEdge e = [] := by
  simp [decodeEdge, hr, hv, ht]

end Strobes

/-- Settles O8: the strobes fix what the edge presents, and the step runs that in order. -/
theorem edgeAppliesEventThenTick : Obligations.EdgeAppliesEventThenTick := by
  unfold Obligations.EdgeAppliesEventThenTick
  intro s e rest hs s0
  rw [step_cons hs]
  refine ⟨fun hr => ?rst, fun hr hv ht => ?event, fun hr hv ht => ?tick, fun hr hv ht => ?both,
    fun hr hv ht hl => ?none⟩
  case rst => exact runEdge_one (decodeEdge_of_rst hr)
  case event => exact runEdge_one (decodeEdge_of_event hr hv ht)
  case tick => exact runEdge_one (decodeEdge_of_tick hr hv ht)
  case both =>
    rw [runEdge_two (decodeEdge_of_event_tick hr hv ht)]
    exact ⟨fun s1 h => by rw [h, andThen_next], fun r h => by rw [h, andThen_refused]⟩
  case none =>
    rw [runEdge_none (decodeEdge_of_none hr hv ht)]
    exact whenConfigured_legal hl

section EventWord
variable {w : EventWord} {s : State} {rest : List Edge}

/-- The kind nibble, compared as a number. -/
theorem eventKind_eq_iff {k : BitVec 4} : eventKind w = k ↔ w.toNat / 2 ^ 20 = k.toNat := by
  rw [← BitVec.toNat_inj, eventKind_toNat]

/-- The note operand is the whole of data byte 1 (30_encoding.md R75). -/
theorem eventNote_toNat (w : EventWord) : (eventNote w).toNat = w.toNat / 2 ^ 8 % 2 ^ 8 := field_toNat w 8 8

/-- NOTE_OFF leaves a slot released exactly if it was, or if it holds the note (40_voice_events.md R93). -/
theorem releaseVoice_released {n : Note} {x : Voice} :
    (releaseVoice n x).released = true ↔ x.released = true ∨ x.note = n := by
  simp [releaseVoice, releasedAfterOff]

/-- The step at an edge that presents one event word is that word's operation. -/
theorem step_evtEdge (hs : s.edges = evtEdge w :: rest) : step s = exec (decodeEvent w) { s with edges := rest } := by
  rw [step_cons hs, runEdge_one (decodeEdge_evtEdge w)]

/-- An event word of any kind, ignored ones included, answers a next state (30_encoding.md R78). -/
theorem step_evtEdge_completes (h : Ready s) (hs : s.edges = evtEdge w :: rest) : ∃ t, step s = .next t := by
  obtain ⟨t, ht, -⟩ := exec_ready (decodeEvent w) (s := { s with edges := rest }) h
  exact ⟨t, (step_evtEdge hs).trans ht⟩

/-- A word of kind 0x9 completes, and the selected slot holds its note operand. -/
theorem step_noteOn_note (h : Ready s) (hs : s.edges = evtEdge w :: rest) (hk : eventKind w = 0x9) :
    ∃ t, step s = .next t ∧ (t.voice (select s).1).note = eventNote w := by
  obtain ⟨t, ht⟩ := step_evtEdge_completes h hs
  refine ⟨t, ht, ?_⟩
  rw [step_evtEdge hs, decodeEvent_on hk] at ht
  obtain ⟨-, rfl⟩ := execNoteOn_eq_next.mp ht
  rw [setCursor_voice, select_withEdges, voice_setVoice_same]
  rfl

/-- A word of kind 0x8 completes, and releases every slot by its note operand. -/
theorem step_noteOff_voice (h : Ready s) (hs : s.edges = evtEdge w :: rest) (hk : eventKind w = 0x8) :
    ∃ t, step s = .next t ∧ ∀ j : Slot, t.voice j = releaseVoice (eventNote w) (s.voice j) := by
  obtain ⟨t, ht⟩ := step_evtEdge_completes h hs
  refine ⟨t, ht, fun j => ?_⟩
  rw [step_evtEdge hs, decodeEvent_off hk] at ht
  obtain ⟨-, rfl⟩ := execNoteOff_eq_next.mp ht
  rw [voice_mapVoices, withEdges_voice]

/-- A word of any other kind takes its edge and changes nothing else. -/
theorem step_evtIgnored (h : Ready s) (hs : s.edges = evtEdge w :: rest) (h9 : eventKind w ≠ 0x9)
    (h8 : eventKind w ≠ 0x8) : step s = .next { s with edges := rest } := by
  rw [step_evtEdge hs, decodeEvent_ignored h9 h8]
  exact execEvtIgnored_eq_next.mpr ⟨h, rfl⟩

end EventWord

/-- Settles O13: the kind chooses the operation, and its note operand is the whole data byte 1. -/
theorem noteOperandIsAllEightBits : Obligations.NoteOperandIsAllEightBits := by
  unfold Obligations.NoteOperandIsAllEightBits
  intro w s rest h hs n
  have hn : (eventNote w).toNat = n := eventNote_toNat w
  refine ⟨fun hk => ?noteOn, fun hk => ?noteOff⟩
  case noteOn =>
    obtain ⟨t, ht, hnote⟩ := step_noteOn_note h hs (eventKind_eq_iff.mpr hk)
    exact ⟨t, ht, by rw [hnote, hn]⟩
  case noteOff =>
    obtain ⟨t, ht, hv⟩ := step_noteOff_voice h hs (eventKind_eq_iff.mpr hk)
    exact ⟨t, ht, fun j => by rw [hv j, releaseVoice_released, ← BitVec.toNat_inj, hn]⟩

/-- Settles O14: a kind at most 7 or at least 10 is neither of the two kinds that are notes. -/
theorem ignoredKindsChangeNothing : Obligations.IgnoredKindsChangeNothing := by
  unfold Obligations.IgnoredKindsChangeNothing
  intro w s rest h hs
  refine ⟨fun hk => ?_, step_evtEdge_completes h hs⟩
  have h9 : eventKind w ≠ 0x9 := by
    rw [Ne, eventKind_eq_iff, show (0x9 : BitVec 4).toNat = 9 from rfl]
    omega
  have h8 : eventKind w ≠ 0x8 := by
    rw [Ne, eventKind_eq_iff, show (0x8 : BitVec 4).toNat = 8 from rfl]
    omega
  exact ⟨⟨_, _, decodeEvent_ignored h9 h8⟩, step_evtIgnored h hs h9 h8⟩

end Sys2Proof.Machine

/-! PROOFS. The note-to-frequency map (40_voice_events.md R91). The twelfth power of the exact frequency is rational, so
where it lies against a ratio is decided on natural numbers; the ROM's rows are checked that way. -/

namespace Sys2Proof.Machine

/-- The real formula of R91 before the floor. -/
noncomputable def exactHertz (n : ℕ) : ℝ := (440 / 32 : ℝ) * 2 ^ (((n : ℝ) - 9) / 12)

theorem exactHertz_pos (n : ℕ) : 0 < exactHertz n := by
  unfold exactHertz
  positivity

theorem exactHertz_mono : Monotone exactHertz := by
  intro m n h
  unfold exactHertz
  gcongr
  norm_num

theorem exactHertz_pow_twelve (n : ℕ) : exactHertz n ^ 12 * 2 ^ 33 = 55 ^ 12 * 2 ^ n := by
  have h : ((2 : ℝ) ^ (((n : ℝ) - 9) / 12)) ^ 12 * 2 ^ 9 = 2 ^ n := by
    rw [← Real.rpow_mul_natCast zero_le_two, Nat.cast_ofNat, div_mul_cancel₀ _ (by norm_num),
      ← Real.rpow_natCast 2 9, ← Real.rpow_add zero_lt_two, Nat.cast_ofNat, sub_add_cancel, Real.rpow_natCast]
  rw [exactHertz, mul_pow, ← h]
  ring

/-- The notes twelve apart from 33 are the octaves of 55 Hz. -/
theorem exactHertz_octave (k : ℕ) : exactHertz (33 + 12 * k) = 55 * 2 ^ k := by
  have h : (((33 + 12 * k : ℕ) : ℝ) - 9) / 12 = ((2 + k : ℕ) : ℝ) := by
    push_cast
    ring
  rw [exactHertz, h, Real.rpow_natCast, pow_add]
  ring

/-- Decides `p / q ≤ exactHertz n` by twelfth powers. -/
def ratioLeHertz (p q n : ℕ) : Bool := p ^ 12 * 2 ^ 33 ≤ 55 ^ 12 * 2 ^ n * q ^ 12

theorem ratioLeHertz_iff {p q n : ℕ} (hq : 0 < q) : ratioLeHertz p q n = true ↔ (p / q : ℝ) ≤ exactHertz n := by
  have hq' : (0 : ℝ) < q := Nat.cast_pos.mpr hq
  calc ratioLeHertz p q n = true
    _ ↔ (p : ℝ) ^ 12 * 2 ^ 33 ≤ 55 ^ 12 * 2 ^ n * q ^ 12 := by
      rw [ratioLeHertz, decide_eq_true_iff]
      exact_mod_cast Iff.rfl
    _ ↔ (p : ℝ) ^ 12 ≤ (exactHertz n * q) ^ 12 := by
      rw [← exactHertz_pow_twelve, mul_pow, mul_right_comm, mul_le_mul_iff_left₀ (by positivity)]
    _ ↔ (p / q : ℝ) ≤ exactHertz n := by
      rw [pow_le_pow_iff_left₀ p.cast_nonneg (mul_pos (exactHertz_pos n) hq').le (by norm_num), div_le_iff₀ hq']

theorem ratioLeHertz_eq_false_iff {p q n : ℕ} (hq : 0 < q) :
    ratioLeHertz p q n = false ↔ exactHertz n < (p / q : ℝ) := by
  rw [← not_le, ← ratioLeHertz_iff hq, Bool.not_eq_true]

/-- The check of the ROM against R91: every row is the floor. -/
theorem rom_row_floor : ∀ n : Note,
    ratioLeHertz (freqHertz n) 1 n.toNat = true ∧ ratioLeHertz (freqHertz n + 1) 1 n.toNat = false := by
  decide

theorem floor_exactHertz (n : Note) : ⌊exactHertz n.toNat⌋ = freqHertz n := by
  obtain ⟨hle, hlt⟩ := rom_row_floor n
  rw [ratioLeHertz_iff one_pos, Nat.cast_one, div_one] at hle
  rw [ratioLeHertz_eq_false_iff one_pos, Nat.cast_one, div_one, Nat.cast_succ] at hlt
  exact Int.floor_eq_iff.mpr ⟨hle, hlt⟩

theorem freqHertz_mono {m n : Note} (h : m ≤ n) : freqHertz m ≤ freqHertz n := by
  have hfloor : ⌊exactHertz m.toNat⌋ ≤ ⌊exactHertz n.toNat⌋ := Int.floor_mono (exactHertz_mono h)
  rw [floor_exactHertz, floor_exactHertz] at hfloor
  exact_mod_cast hfloor

theorem freqHertz_bounds (n : Note) : 8 ≤ freqHertz n ∧ freqHertz n ≤ 20390018 :=
  ⟨freqHertz_mono (m := 0) (Nat.zero_le _), freqHertz_mono (n := 255) (Nat.le_of_lt_succ n.isLt)⟩

theorem freqOf_toNat (n : Note) : (freqOf n).toNat = freqHertz n := by
  have := (freqHertz_bounds n).2
  rw [freqOf, BitVec.toNat_ofNat, Nat.mod_eq_of_lt (by omega)]

/-- The distance from an integer that a note off the octaves of 55 Hz keeps, in units of 10⁻⁵: only n = 31 comes nearer
than 60. -/
def romGap (n : ℕ) : ℕ := if n = 31 then 57 else 60

theorem romGap_bounds (n : ℕ) : 57 ≤ romGap n ∧ romGap n ≤ 60 := by
  unfold romGap
  split <;> omega

/-- The check of the ROM against R91: every row off the octaves of 55 Hz keeps its gap on both sides. -/
theorem rom_row_gap : ∀ n : Note, (33 ≤ n.toNat ∧ n.toNat % 12 = 9) ∨
    (ratioLeHertz (10 ^ 5 * freqHertz n + romGap n.toNat) (10 ^ 5) n.toNat = true ∧
      ratioLeHertz (10 ^ 5 * (freqHertz n + 1) - romGap n.toNat) (10 ^ 5) n.toNat = false) := by
  decide

/-- A real that is `δ` inside two neighbouring integers is `δ` away from every integer. -/
theorem le_abs_sub_intCast {x δ : ℝ} {z : ℤ} (hlo : z + δ ≤ x) (hhi : x ≤ z + 1 - δ) (m : ℤ) : δ ≤ |x - m| := by
  rcases le_or_gt m z with hm | hm
  · have : (m : ℝ) ≤ z := Int.cast_le.mpr hm
    exact le_abs.mpr (.inl (by linarith))
  · have : (z : ℝ) + 1 ≤ m := by exact_mod_cast hm
    exact le_abs.mpr (.inr (by linarith))

theorem romGap_le_abs_sub {n : Note} (hn : ¬ ∃ k : ℕ, n.toNat = 33 + 12 * k) (m : ℤ) :
    (romGap n.toNat / 10 ^ 5 : ℝ) ≤ |exactHertz n.toNat - m| := by
  have hoff : ¬ (33 ≤ n.toNat ∧ n.toNat % 12 = 9) := fun h => hn ⟨(n.toNat - 33) / 12, by omega⟩
  obtain ⟨hlo, hhi⟩ := (rom_row_gap n).resolve_left hoff
  have hgap : romGap n.toNat ≤ 10 ^ 5 * (freqHertz n + 1) := by
    have := (romGap_bounds n.toNat).2
    omega
  rw [ratioLeHertz_iff (by norm_num)] at hlo
  rw [ratioLeHertz_eq_false_iff (by norm_num), Nat.cast_sub hgap] at hhi
  push_cast at hlo hhi
  refine le_abs_sub_intCast (z := freqHertz n) ?_ ?_ m
  · push_cast
    linarith
  · push_cast
    linarith

/-- The least distance from an integer (R91). -/
theorem leastDistance_le_abs_sub {n : Note} (hn : ¬ ∃ k : ℕ, n.toNat = 33 + 12 * k) (m : ℤ) :
    (0.00057 : ℝ) ≤ |exactHertz n.toNat - m| := by
  have h57 : (57 : ℝ) ≤ romGap n.toNat := by exact_mod_cast (romGap_bounds n.toNat).1
  linarith [romGap_le_abs_sub hn m]

/-- The integer values of the formula (R91). -/
theorem exactHertz_eq_int_iff (n : Note) :
    (∃ m : ℤ, exactHertz n.toNat = m) ↔ ∃ k : ℕ, n.toNat = 33 + 12 * k := by
  constructor
  · rintro ⟨m, hm⟩
    by_contra hn
    have hdist := leastDistance_le_abs_sub hn m
    rw [hm, sub_self, abs_zero] at hdist
    linarith
  · rintro ⟨k, hk⟩
    exact ⟨55 * 2 ^ k, by rw [hk, exactHertz_octave]; push_cast; rfl⟩

/-- The note n = 31, whose value R91 gives as 48.99943, is within 60 units of 10⁻⁵ below 49. -/
theorem exactHertz_thirtyOne_near : (49 - 0.0006 : ℝ) ≤ exactHertz 31 ∧ exactHertz 31 < 49 := by
  have hlo := (ratioLeHertz_iff (p := 489994) (q := 10 ^ 4) (n := 31) (by norm_num)).mp (by decide)
  have hhi := (ratioLeHertz_eq_false_iff (p := 49) (q := 1) (n := 31) one_pos).mp (by decide)
  push_cast at hlo hhi
  constructor <;> linarith

/-- No note comes nearer to an integer than n = 31 does (R91). -/
theorem abs_exactHertz_thirtyOne_le {n : Note} (hn : ¬ ∃ k : ℕ, n.toNat = 33 + 12 * k) (m : ℤ) :
    |exactHertz 31 - 49| ≤ |exactHertz n.toNat - m| := by
  obtain ⟨hlo, hhi⟩ := exactHertz_thirtyOne_near
  by_cases h31 : n.toNat = 31
  · have hround : round (exactHertz 31) = 49 := by
      rw [round_eq, Int.floor_eq_iff]
      constructor <;> push_cast <;> linarith
    simpa only [hround, h31, Int.cast_ofNat] using round_le (exactHertz 31) m
  · have hgap := romGap_le_abs_sub hn m
    rw [romGap, if_neg h31] at hgap
    push_cast at hgap
    exact (abs_le.mpr ⟨by linarith, by linarith⟩).trans hgap

/-- Settles O20: the rows are checked by twelfth powers, the octaves of 55 Hz by the exponent's arithmetic, and the
distances by the gap each other row keeps. -/
theorem freqIsExactFloor : Obligations.FreqIsExactFloor := by
  unfold Obligations.FreqIsExactFloor
  intro hertz hhertz
  obtain rfl : hertz = fun n => exactHertz n.toNat := funext hhertz
  simp only [freqOf_toNat]
  refine ⟨fun n => (floor_exactHertz n).symm, freqHertz_bounds, exactHertz_eq_int_iff, fun n k hk => ?octave,
    fun n hn => ?distance, fun n hn => ?nearest⟩
  case octave => rw [hk, exactHertz_octave]
  case distance => exact leastDistance_le_abs_sub (mt (exactHertz_eq_int_iff n).mpr hn)
  case nearest => exact abs_exactHertz_thirtyOne_le (mt (exactHertz_eq_int_iff n).mpr hn)

end Sys2Proof.Machine

/-! PROOFS. TICK on one slot of the whole array, and the decay branch (41_envelope_tick.md R112, R113). -/

namespace Sys2Proof.Machine

/-- TICK completes from every ready state, and writes every slot by `tickVoice`, which reads that slot alone (R112). -/
theorem exec_tick_voice {s : State} (h : Ready s) :
    ∃ t, exec .tick s = .next t ∧ ∀ j : Slot, t.voice j = tickVoice s.cfg (s.voice j) := by
  obtain ⟨t, ht, -⟩ := exec_ready .tick h
  obtain ⟨-, rfl⟩ := execTick_eq_next.mp ht
  exact ⟨_, ht, fun j => voice_mapVoices _ _ _⟩

section DecayBranch
variable {c : Config} {x : Voice}

theorem inAttack_eq_false_iff :
    inAttack c x = false ↔ ¬ (10 * x.acnt.toNat < c.sampleRate ∧ x.released = false) := by
  rw [← Bool.not_eq_true, inAttack_iff]

theorem decrement_unreleased (c : Config) : decrement c false = c.decayStep.toInt := add_zero _

theorem decrement_released (c : Config) : decrement c true = c.decayStep.toInt + c.releaseStep.toInt := rfl

/-- An active slot outside attack loses its decrement exactly: R36 keeps the code far enough from the ends of Q4.28. -/
theorem tickVoice_decay_amp (hl : legal c = true) (hx : VoiceOk c x) (ha : x.active = true)
    (hk : inAttack c x = false) : (tickVoice c x).amp.toInt = x.amp.toInt - decrement c x.released := by
  rw [tickVoice_decay ha hk, decayVoice_amp hl hx ha]

end DecayBranch

/-- Settles O27: a ready state's slots meet R36, so each slot outside attack loses exactly its decrement, which is read
off by its `released` flag. -/
theorem tickDecayBranch : Obligations.TickDecayBranch := by
  unfold Obligations.TickDecayBranch
  intro s hs
  obtain ⟨t, ht, htick⟩ := exec_tick_voice hs
  obtain ⟨hl, -, hc⟩ := hs
  obtain ⟨-, hv⟩ := consistent_iff.mp hc
  refine ⟨t, ht, fun j ha hdecay => ?_⟩
  have hamp : (t.voice j).amp.toInt = (s.voice j).amp.toInt - decrement s.cfg (s.voice j).released := by
    rw [htick j, tickVoice_decay_amp hl (hv j) ha (inAttack_eq_false_iff.mpr hdecay)]
  constructor
  case left =>
    intro hrel
    rw [hamp, hrel, decrement_unreleased]
  case right =>
    intro hrel
    rw [hamp, hrel, decrement_released, sub_add_eq_sub_sub]

end Sys2Proof.Machine

/-! PROOFS. What any step does, said once: it runs the operations its edge presents, or it idles (30_encoding.md R77);
and what every run of operations then keeps (60_exceptions.md R130, 10_state.md R36). -/

namespace Sys2Proof.Machine

/-- `s` once the host's next edge, if there is one, is taken. -/
abbrev edgeTaken (s : State) : State := { s with edges := s.edges.tail }

/-- The refusal `r` names the one of the three cases of R131 that holds of `s`. -/
def RefusalHolds (r : Refusal) (s : State) : Prop :=
  (r = .illegalConfiguration ∧ legal s.cfg = false) ∨
  (r = .beforeFirstReset ∧ legal s.cfg = true ∧ s.everReset = false) ∨
  (r = .unreachableState ∧ legal s.cfg = true ∧ s.everReset = true ∧ consistent s = false)

section Runs
variable {s t : State} {i : Instr} {is js : List Instr} {e : Edge} {rest : List Edge} {r : Refusal}

/-- Operations in two parts: the second part goes on where the first ends. -/
theorem runOps_append (is js : List Instr) (s : State) :
    runOps (is ++ js) s = andThen (runOps is s) (runOps js) := by
  induction is generalizing s with
  | nil => rfl
  | cons i is ih =>
    rw [List.cons_append, runOps_cons, runOps_cons]
    cases exec i s with
    | next t => exact ih t
    | fault _ => rfl
    | refused _ => rfl

/-- An edge that presents some operation runs what it presents. -/
theorem runEdge_some (h : decodeEdge e ≠ []) : runEdge e s = runOps (decodeEdge e) s := by
  unfold runEdge
  split
  · next hd => exact absurd hd h
  · next hd => rw [hd]

/-- Every step idles or runs one or more operations, with its edge taken. -/
theorem step_eq (s : State) :
    step s = idle (edgeTaken s) ∨ ∃ i is, step s = runOps (i :: is) (edgeTaken s) := by
  obtain ⟨v, rr, c, er, es⟩ := s
  cases es with
  | nil => exact .inl (step_nil rfl)
  | cons e rest =>
    rw [step_cons rfl]
    cases hd : decodeEdge e with
    | nil => exact .inl (runEdge_none hd)
    | cons i is =>
      refine .inr ⟨i, is, ?_⟩
      rw [runEdge_some (hd ▸ List.cons_ne_nil i is), hd]
      rfl

/-- A step that answers a next state has run some operations, or none, from the state with its edge taken. -/
theorem step_eq_next (h : step s = .next t) : ∃ is, runOps is (edgeTaken s) = .next t := by
  rcases step_eq s with hs | ⟨i, is, hs⟩
  · obtain ⟨-, ht⟩ := whenConfigured_eq_next.mp (hs.symm.trans h)
    exact ⟨[], congrArg Host.Outcome.next ht⟩
  · exact ⟨i :: is, hs.symm.trans h⟩

/-- What every operation keeps, every run of operations keeps. -/
theorem runOps_keeps {P : State → Prop} (hP : ∀ {i s t}, P s → exec i s = .next t → P t) (hs : P s)
    (h : runOps is s = .next t) : P t := by
  induction is generalizing s with
  | nil =>
    obtain rfl : s = t := by simpa using h
    exact hs
  | cons i is ih =>
    obtain ⟨u, hu, hrun⟩ := andThen_eq_next.mp h
    exact ih (hP hs hu) hrun

/-- What every step keeps, every run of edges keeps. -/
theorem steps_keeps {P : State → Prop} {k : Nat} (hP : ∀ {s t}, P s → step s = .next t → P t) (hs : P s)
    (h : steps k s = .next t) : P t := by
  induction k generalizing s with
  | zero =>
    obtain rfl : s = t := by simpa using h
    exact hs
  | succ k ih =>
    obtain ⟨u, hu, hrun⟩ := andThen_eq_next.mp h
    exact ih (hP hs hu) hrun

/-- An operation that answers a next state leaves it ready, wherever it started. -/
theorem ready_of_exec (h : exec i s = .next t) : Ready t := by
  obtain ⟨hl, hc, -, hr⟩ := exec_own h
  exact ⟨hc ▸ hl, hr, exec_consistent h⟩

/-- Operations complete from every ready state, in a ready state. -/
theorem runOps_ready (is : List Instr) (h : Ready s) : ∃ t, runOps is s = .next t ∧ Ready t := by
  induction is generalizing s with
  | nil => exact ⟨s, rfl, h⟩
  | cons i is ih =>
    obtain ⟨u, hu, hr⟩ := exec_ready i h
    rw [runOps_cons, hu]
    exact ih hr

/-- A step completes from every ready state, in a ready state. -/
theorem step_ready (h : Ready s) : ∃ t, step s = .next t ∧ Ready t := by
  have h' : Ready (edgeTaken s) := h
  rcases step_eq s with hs | ⟨i, is, hs⟩
  · exact ⟨edgeTaken s, hs.trans (whenConfigured_legal h'.1), h'⟩
  · rw [hs]
    exact runOps_ready (i :: is) h'

/-- So does any number of steps. -/
theorem steps_ready (k : Nat) (h : Ready s) : ∃ t, steps k s = .next t ∧ Ready t := by
  induction k generalizing s with
  | zero => exact ⟨s, rfl, h⟩
  | succ k ih =>
    obtain ⟨u, hu, hr⟩ := step_ready h
    rw [steps_succ, hu]
    exact ih hr

/-- One step more than a run that answers `t`. -/
theorem steps_snoc {k : Nat} (h : steps k s = .next t) : steps (k + 1) s = step t := by
  rw [steps_add, h, andThen_next, steps_succ]
  exact andThen_same _

/-- A run of operations keeps the configuration. -/
theorem runOps_cfg (h : runOps is s = .next t) : t.cfg = s.cfg :=
  runOps_keeps (P := fun u => u.cfg = s.cfg) (fun hu hx => (exec_own hx).2.1.trans hu) rfl h

/-- A run of operations leaves the host's schedule. -/
theorem runOps_edges (h : runOps is s = .next t) : t.edges = s.edges :=
  runOps_keeps (P := fun u => u.edges = s.edges) (fun hu hx => (exec_own hx).2.2.1.trans hu) rfl h

theorem step_cfg (h : step s = .next t) : t.cfg = s.cfg := by
  obtain ⟨is, hrun⟩ := step_eq_next h
  exact runOps_cfg (s := edgeTaken s) hrun

/-- An operation is refused in the three cases of R131 alone; RESET in the first alone. -/
theorem exec_eq_refused (h : exec i s = .refused r) : RefusalHolds r s := by
  cases i with
  | reset => exact .inl (whenConfigured_eq_refused.mp h)
  | noteOn _ _ _ | noteOff _ _ _ | evtIgnored _ _ | tick => exact whenReady_eq_refused.mp h

/-- Every operation but RESET makes the three checks of R131 first. -/
theorem exec_eq_whenReady (s : State) (h : i ≠ .reset) : ∃ t, exec i s = whenReady s t := by
  cases i with
  | reset => exact absurd rfl h
  | noteOn _ _ _ | noteOff _ _ _ | evtIgnored _ _ | tick => exact ⟨_, rfl⟩

/-- An illegal configuration is refused by every operation. -/
theorem exec_illegal (i : Instr) (h : legal s.cfg = false) : exec i s = .refused .illegalConfiguration := by
  by_cases hi : i = .reset
  · rw [hi]
    exact whenConfigured_illegal h
  · obtain ⟨t, ht⟩ := exec_eq_whenReady s hi
    exact ht.trans (whenReady_eq_refused.mpr (.inl ⟨rfl, h⟩))

/-- An illegal configuration is refused at every edge. -/
theorem step_illegal (h : legal s.cfg = false) : step s = .refused .illegalConfiguration := by
  rcases step_eq s with hs | ⟨i, is, hs⟩
  · exact hs.trans (whenConfigured_illegal h)
  · rw [hs, runOps_cons, exec_illegal (s := edgeTaken s) i h]
    rfl

/-- A step refuses only where its first operation does: what comes after one completes. -/
theorem step_eq_refused (h : step s = .refused r) : RefusalHolds r s := by
  rcases step_eq s with hs | ⟨i, is, hs⟩
  · exact .inl (whenConfigured_eq_refused.mp (hs.symm.trans h))
  · rw [hs, runOps_cons] at h
    cases hx : exec i (edgeTaken s) with
    | next u =>
      obtain ⟨t, ht, -⟩ := runOps_ready is (ready_of_exec hx)
      rw [hx, andThen_next, ht] at h
      cases h
    | fault f => cases f
    | refused r' =>
      rw [hx, andThen_refused] at h
      cases h
      exact exec_eq_refused (s := edgeTaken s) hx

end Runs

/-- Settles O1: the edge of a well-formed operation decodes to that operation alone. -/
theorem decodeEncodeRoundTrip : Obligations.DecodeEncodeRoundTrip := by
  unfold Obligations.DecodeEncodeRoundTrip
  intro i h
  exact decodeEdge_encode h

/-- Settles O48: an idle edge holds a ready state, and operations complete from it one after the other. -/
theorem stepFromReadyCompletesReady : Obligations.StepFromReadyCompletesReady := by
  unfold Obligations.StepFromReadyCompletesReady
  intro s h
  exact step_ready h

/-- Settles O38: every step keeps the configuration, so every run does. -/
theorem configurationNeverChanges : Obligations.ConfigurationNeverChanges := by
  unfold Obligations.ConfigurationNeverChanges
  intro s t k h
  exact steps_keeps (P := fun u => u.cfg = s.cfg) (fun hu hstep => (step_cfg hstep).trans hu) rfl h

/-- Settles O31: the configuration is checked by every operation and at every edge, the other two cases by every
operation but RESET. -/
theorem operationsRefusedInThreeCases : Obligations.OperationsRefusedInThreeCases := by
  unfold Obligations.OperationsRefusedInThreeCases
  intro i s
  refine ⟨fun hl => ⟨exec_illegal i hl, step_illegal hl⟩, fun hl hr hi => ?beforeReset,
    fun hl hr hc hi => ?unreachable⟩
  case beforeReset =>
    obtain ⟨t, ht⟩ := exec_eq_whenReady s hi
    exact ht.trans (whenReady_eq_refused.mpr (.inr (.inl ⟨rfl, hl, hr⟩)))
  case unreachable =>
    obtain ⟨t, ht⟩ := exec_eq_whenReady s hi
    exact ht.trans (whenReady_eq_refused.mpr (.inr (.inr ⟨rfl, hl, hr, hc⟩)))

/-- Settles O32: a step refuses only where the first operation of its edge does. -/
theorem stepRefusesOnlyInThreeCases : Obligations.StepRefusesOnlyInThreeCases := by
  unfold Obligations.StepRefusesOnlyInThreeCases
  intro s r h
  exact step_eq_refused h

/-- Settles O10: with no edge left the step idles. -/
theorem idleHostHoldsState : Obligations.IdleHostHoldsState := by
  unfold Obligations.IdleHostHoldsState
  intro s hl hs
  rw [step_nil hs]
  exact whenConfigured_legal hl

end Sys2Proof.Machine

/-! PROOFS. The event word and its fields (30_encoding.md R71, R72), its bytes (R79) and the assembler's lines
(R80, R81). -/

namespace Sys2Proof.Machine

/-- Every event word is one of a well-formed operation, whose encoding it is (R71, R72). -/
theorem decodeEvent_encodes (w : EventWord) : (decodeEvent w).wellFormed = true ∧
    encode (decodeEvent w) = evtEdge w ∧ encodeEvent (decodeEvent w) = some w := by
  by_cases h9 : eventKind w = 0x9
  · have hw : messageWord 0x9 (eventChan w) (eventNote w) (eventVelocity w) = w := h9 ▸ messageWord_fields w
    rw [decodeEvent_on h9]
    exact ⟨rfl, congrArg evtEdge hw, congrArg some hw⟩
  by_cases h8 : eventKind w = 0x8
  · have hw : messageWord 0x8 (eventChan w) (eventNote w) (eventVelocity w) = w := h8 ▸ messageWord_fields w
    rw [decodeEvent_off h8]
    exact ⟨rfl, congrArg evtEdge hw, congrArg some hw⟩
  · rw [decodeEvent_ignored h9 h8]
    exact ⟨by simpa [Instr.wellFormed, ignoredKind] using ⟨h9, h8⟩, congrArg evtEdge (kindWord_fields w),
      congrArg some (kindWord_fields w)⟩

/-- Three bytes make the word they spell, the first on top (20_memory.md R51). -/
theorem bytesWord_eq {status d1 d2 : Byte} {w : EventWord}
    (h : w.toNat = status.toNat * 2 ^ 16 + d1.toNat * 2 ^ 8 + d2.toNat) : (status ++ d1 ++ d2 : BitVec 24) = w := by
  apply BitVec.eq_of_toNat_eq
  rw [append_toNat, append_toNat, h]
  omega

/-- Fewer than three bytes hold no event word. -/
theorem decodeBytes_short {bytes : List Byte} (h : bytes.length < 3) :
    decodeBytes bytes = .error (.incompleteWord bytes.length) := by
  match bytes, h with
  | [], _ => rfl
  | [_], _ => rfl
  | [_, _], _ => rfl

/-- Settles O2: the kind chooses the operation, and putting the fields together again gives the word. -/
theorem encodeDecodeEventWord : Obligations.EncodeDecodeEventWord := by
  unfold Obligations.EncodeDecodeEventWord
  exact decodeEvent_encodes

/-- Settles O3: the kind as a number chooses the decoder's case, and each field is the number its bits spell. -/
theorem decodeReadsEachFieldFromItsBits : Obligations.DecodeReadsEachFieldFromItsBits := by
  unfold Obligations.DecodeReadsEachFieldFromItsBits
  intro w kind chan d1 d2
  have hchan : eventChan w = chan := field_eq_ofNat w 16 4
  have hd1 : eventNote w = d1 := field_eq_ofNat w 8 8
  have hd2 : eventVelocity w = d2 := by
    rw [eventVelocity, field_eq_ofNat, pow_zero, Nat.div_one]
  have hrest : eventRest w = BitVec.ofNat 20 (w.toNat % 2 ^ 20) := by
    rw [eventRest, field_eq_ofNat, pow_zero, Nat.div_one]
  have hkind : eventKind w = BitVec.ofNat 4 kind := by
    change eventKind w = BitVec.ofNat 4 (w.toNat / 2 ^ 20)
    rw [← eventKind_toNat, BitVec.ofNat_toNat, BitVec.setWidth_eq]
  refine ⟨fun h9 => ?noteOn, fun h8 => ?noteOff, fun h9 h8 => ?ignored⟩
  case noteOn => rw [decodeEvent_on (eventKind_eq_iff.mpr h9), hchan, hd1, hd2]
  case noteOff => rw [decodeEvent_off (eventKind_eq_iff.mpr h8), hchan, hd1, hd2]
  case ignored =>
    rw [decodeEvent_ignored (mt eventKind_eq_iff.mp h9) (mt eventKind_eq_iff.mp h8), hrest, hkind]

/-- Settles O4, by running the decoder on the eight words. -/
theorem decodeOfWrittenOutWords : Obligations.DecodeOfWrittenOutWords := by
  unfold Obligations.DecodeOfWrittenOutWords
  decide

/-- Settles O5: three bytes are put together into their word, and there is no case for fewer. -/
theorem eventBytesStatusFirst : Obligations.EventBytesStatusFirst := by
  unfold Obligations.EventBytesStatusFirst
  refine ⟨fun status d1 d2 rest w h => ?_, fun bytes h => decodeBytes_short h⟩
  rw [decodeBytes, bytesWord_eq h]

/-- Settles O6: the lines of one edge by their definition, and the note lines by what their edge decodes to. -/
theorem assemblerLineExpansions : Obligations.AssemblerLineExpansions := by
  unfold Obligations.AssemblerLineExpansions
  refine ⟨rfl, rfl, fun _ => rfl, fun _ => rfl, fun chan note vel => ?noteOn, fun chan note vel => ?noteOff,
    fun note => ?pseudoOn, fun note => ?pseudoOff, fun k => ?ticks⟩
  case noteOn => exact decodeEdge_encode (i := .noteOn chan note vel) rfl
  case noteOff => exact decodeEdge_encode (i := .noteOff chan note vel) rfl
  case pseudoOn => rfl
  case pseudoOff => rfl
  case ticks => simp [lineEdges]

/-- Settles O7: the edge decodes to the operation. -/
theorem stepRunsDecodedInstruction : Obligations.StepRunsDecodedInstruction := by
  unfold Obligations.StepRunsDecodedInstruction
  intro s i rest hwf hs
  exact step_encode hwf hs

end Sys2Proof.Machine

/-! PROOFS. Runs over any edges that present something: shared edges (20_memory.md R53, 70_reset_and_hazards.md R154),
fields no operation reads (30_encoding.md R73, R74), and the periods of a host (70_reset_and_hazards.md R153). -/

namespace Sys2Proof.Machine

section PresentedRuns
variable {s : State} {e : Edge} {es rest : List Edge}

/-- A run over edges that each present something is the run of the operations they present, in order. -/
theorem steps_eq_runOps (hes : ∀ e ∈ es, decodeEdge e ≠ []) (hs : s.edges = es ++ rest) :
    steps es.length s = runOps (es.flatMap decodeEdge) { s with edges := rest } := by
  induction es generalizing s with
  | nil =>
    obtain rfl : s.edges = rest := hs
    rfl
  | cons e es ih =>
    obtain ⟨he, hes'⟩ := List.forall_mem_cons.mp hes
    rw [List.length_cons, steps_succ, step_cons (rest := es ++ rest) hs, runEdge_some he, List.flatMap_cons,
      runOps_append, runOps_withEdges _ s (es ++ rest), runOps_withEdges _ s rest]
    cases runOps (decodeEdge e) s with
    | next t => exact ih (s := { t with edges := es ++ rest }) hes' rfl
    | fault _ => rfl
    | refused _ => rfl

/-- Two edges whose first operations have one effect, and whose other operations are the same, give one outcome. -/
theorem runEdge_congr {e' : Edge} {i i' : Instr} {is : List Instr} (he : decodeEdge e = i :: is)
    (he' : decodeEdge e' = i' :: is) (h : exec i s = exec i' s) : runEdge e s = runEdge e' s := by
  rw [runEdge_some (he ▸ List.cons_ne_nil i is), runEdge_some (he' ▸ List.cons_ne_nil i' is), he, he', runOps_cons,
    runOps_cons, h]

/-- An event word's effect is fixed by its kind and its note operand (R73, R74). -/
theorem exec_decodeEvent_congr {w w' : EventWord} (hk : eventKind w = eventKind w') (hn : eventNote w = eventNote w')
    (s : State) : exec (decodeEvent w) s = exec (decodeEvent w') s := by
  by_cases h9 : eventKind w = 0x9
  · rw [decodeEvent_on h9, decodeEvent_on (hk ▸ h9), hn]
    rfl
  by_cases h8 : eventKind w = 0x8
  · rw [decodeEvent_off h8, decodeEvent_off (hk ▸ h8), hn]
    rfl
  · rw [decodeEvent_ignored h9 h8, decodeEvent_ignored (hk ▸ h9) (hk ▸ h8)]
    rfl

end PresentedRuns

/-- Settles O9: one shared edge presents what the two edges present. -/
theorem sharedEdgeEqualsTwoEdges : Obligations.SharedEdgeEqualsTwoEdges := by
  unfold Obligations.SharedEdgeEqualsTwoEdges
  intro s w rest
  have hshared : step { s with edges := evtTickEdge w :: rest } =
      runOps [decodeEvent w, .tick] { s with edges := rest } := by
    rw [step_cons rfl, runEdge_some (by simp), decodeEdge_evtTickEdge]
  have htwo : steps 2 { s with edges := evtEdge w :: tickEdge :: rest } =
      runOps [decodeEvent w, .tick] { s with edges := rest } :=
    steps_eq_runOps (es := [evtEdge w, tickEdge]) (by simp) rfl
  rw [hshared, htwo]

/-- Settles O12: kind and note fix the event's effect, with or without the tick after it. -/
theorem channelAndVelocityAreNotRead : Obligations.ChannelAndVelocityAreNotRead := by
  unfold Obligations.ChannelAndVelocityAreNotRead
  intro w w' s tk rest hk hn
  have hkind : eventKind w = eventKind w' := by
    rw [← BitVec.toNat_inj, eventKind_toNat, eventKind_toNat, hk]
  have hnote : eventNote w = eventNote w' := by
    rw [← BitVec.toNat_inj, eventNote_toNat, eventNote_toNat, hn]
  have hx := exec_decodeEvent_congr hkind hnote { s with edges := rest }
  rw [step_cons rfl, step_cons rfl]
  cases tk with
  | false => exact runEdge_congr (decodeEdge_evtEdge w) (decodeEdge_evtEdge w') hx
  | true => exact runEdge_congr (decodeEdge_evtTickEdge w) (decodeEdge_evtTickEdge w') hx

/-- A period presents its events in order and then one tick, whichever edge the tick is on (R153). -/
theorem flatMap_periodEdges (events : List EventWord) (shared : Bool) :
    (periodEdges events shared).flatMap decodeEdge = events.map decodeEvent ++ [.tick] := by
  induction events, shared using periodEdges.induct with
  | case1 shared => rfl
  | case2 w => rfl
  | case3 w ws shared hlast ih =>
    rw [periodEdges, List.flatMap_cons, ih]
    · rfl
    · exact hlast

/-- No edge of a period presents nothing. -/
theorem periodEdges_present (events : List EventWord) (shared : Bool) :
    ∀ e ∈ periodEdges events shared, decodeEdge e ≠ [] := by
  induction events, shared using periodEdges.induct with
  | case1 shared => simp [periodEdges]
  | case2 w => simp [periodEdges]
  | case3 w ws shared hlast ih =>
    rw [periodEdges]
    · exact List.forall_mem_cons.mpr ⟨by simp, ih⟩
    · exact hlast

/-- Settles O46, by induction on the period's edges. -/
theorem periodPresentsEventsThenOneTick : Obligations.PeriodPresentsEventsThenOneTick := by
  unfold Obligations.PeriodPresentsEventsThenOneTick
  intro p
  exact flatMap_periodEdges p.events p.shared

end Sys2Proof.Machine

/-! PROOFS. The output ports (10_state.md R33, R34). -/

namespace Sys2Proof.Machine

/-- The slot array is its ten reads in index order. -/
theorem toList_voices (s : State) : s.voices.toList = (List.finRange 10).map s.voice := by
  apply List.ext_getElem
  · simp
  · intro i _ _
    simp [State.voice]

/-- The ports of a slot show that slot. -/
theorem outputs_slot (s : State) (j : Slot) : (outputs s).slot[j.val] = slotPorts (s.voice j) := by
  simp [outputs, State.voice]

/-- The number of sounding slots. -/
def soundingCount (s : State) : Nat := (Finset.univ.filter fun j : Slot => (s.voice j).active = true).card

theorem soundingCount_le (s : State) : soundingCount s ≤ 10 :=
  (Finset.card_filter_le _ _).trans (Finset.card_fin 10).le

/-- Counting along the slot array is counting the slots. -/
theorem countP_active (s : State) : s.voices.toList.countP (fun x => x.active) = soundingCount s := by
  rw [toList_voices, List.countP_map, soundingCount, Finset.card_def, Finset.filter_val,
    ← Multiset.countP_eq_card_filter, Fin.univ_def, Multiset.coe_countP]
  congr 1
  ext j
  simp

/-- `o_active_count` is exact: ten slots fit in its four bits. -/
theorem outputs_activeCount (s : State) : (outputs s).activeCount.toNat = soundingCount s := by
  have := soundingCount_le s
  simp only [outputs, countP_active, BitVec.toNat_ofNat]
  omega

/-- The ports are fixed by the ports of the slots: the count reads `active` alone. -/
theorem outputs_congr {s t : State} (h : ∀ j : Slot, slotPorts (s.voice j) = slotPorts (t.voice j)) :
    outputs s = outputs t := by
  have hslot : (outputs s).slot = (outputs t).slot := by
    apply Vector.ext
    intro i hi
    rw [outputs_slot s ⟨i, hi⟩, outputs_slot t ⟨i, hi⟩, h]
  have hactive : ∀ j : Slot, (s.voice j).active = (t.voice j).active := fun j => congrArg SlotPorts.active (h j)
  have hcount : (outputs s).activeCount = (outputs t).activeCount := by
    rw [← BitVec.toNat_inj, outputs_activeCount, outputs_activeCount]
    simp only [soundingCount, hactive]
  calc outputs s = ⟨(outputs s).slot, (outputs s).activeCount⟩ := rfl
    _ = ⟨(outputs t).slot, (outputs t).activeCount⟩ := by rw [hslot, hcount]

/-- Settles O33: no port of a slot reads the reserved counter, and the count is exact. -/
theorem outputPortsShowTheState : Obligations.OutputPortsShowTheState := by
  unfold Obligations.OutputPortsShowTheState
  refine ⟨outputs_slot, fun s => ?count, fun s t h => ?hidden⟩
  case count =>
    rw [outputs_activeCount]
    exact ⟨rfl, soundingCount_le s⟩
  case hidden =>
    refine outputs_congr fun j => ?_
    have hports := congrArg slotPorts (h j)
    exact hports

end Sys2Proof.Machine

/-! PROOFS. RESET and the three event operations: what each completes with from a ready state, and the sequences of
them the spec spells out (40_voice_events.md section 5, 70_reset_and_hazards.md section 1). -/

namespace Sys2Proof.Machine

section Events
variable {s t : State} {chan : BitVec 4} {n : Note} {vel : Byte} {k : Slot} {r : Cursor} {rest : List Edge}

/-- From a ready state an operation leaves the model's own fields. -/
theorem exec_keepsOwn {i : Instr} (h : Ready s) (hx : exec i s = .next t) : KeepsOwn s t := by
  obtain ⟨-, hc, he, hr⟩ := exec_own hx
  obtain ⟨-, hs, -⟩ := h
  exact ⟨hc, hr.trans hs.symm, he⟩

/-- The state after RESET is ready under a legal configuration. -/
theorem ready_resetWith {c : Config} {es : List Edge} (hl : legal c = true) : Ready (State.resetWith c es) :=
  ready_of_exec (i := .reset) (s := State.resetWith c es) (execReset_eq_next.mpr ⟨hl, rfl⟩)

/-- NOTE_ON writes the selected slot and the cursor, and nothing else (40_voice_events.md R92). -/
theorem exec_noteOn_voice (h : Ready s) (hsel : select s = (k, r)) :
    ∃ t, exec (.noteOn chan n vel) s = .next t ∧ t.voice k = allocated n ∧
      (∀ j : Slot, j ≠ k → t.voice j = s.voice j) ∧ t.rr = r ∧ KeepsOwn s t := by
  obtain ⟨t, ht, -⟩ := exec_ready (.noteOn chan n vel) h
  have hown := exec_keepsOwn h ht
  obtain ⟨-, rfl⟩ := execNoteOn_eq_next.mp ht
  rw [hsel] at ht hown
  exact ⟨_, ht, voice_setVoice_same _ _ _, fun j hj => voice_setVoice_other _ _ hj, rfl, hown⟩

/-- NOTE_OFF writes every slot by `releaseVoice`, and nothing else (R93). -/
theorem exec_noteOff_voice (h : Ready s) :
    ∃ t, exec (.noteOff chan n vel) s = .next t ∧ (∀ j : Slot, t.voice j = releaseVoice n (s.voice j)) ∧
      t.rr = s.rr ∧ KeepsOwn s t := by
  obtain ⟨t, ht, -⟩ := exec_ready (.noteOff chan n vel) h
  have hown := exec_keepsOwn h ht
  obtain ⟨-, rfl⟩ := execNoteOff_eq_next.mp ht
  exact ⟨_, ht, fun j => voice_mapVoices _ _ _, rfl, hown⟩

theorem releaseVoice_match {x : Voice} (h : x.note = n) : releaseVoice n x = { x with released := true } := by
  simp [releaseVoice, releasedAfterOff, h]

theorem releaseVoice_noMatch {x : Voice} (h : x.note ≠ n) : releaseVoice n x = x := by
  have hne : (x.note == n) = false := beq_eq_false_iff_ne.mpr h
  rw [releaseVoice, releasedAfterOff, hne, Bool.or_false]

/-- The step at an edge that presents NOTE_ON. -/
theorem step_noteOn_voice (h : Ready s) (hs : s.edges = encode (.noteOn chan n vel) :: rest)
    (hsel : select s = (k, r)) : ∃ t, step s = .next t ∧ Ready t ∧ t.edges = rest ∧ t.cfg = s.cfg ∧ t.rr = r ∧
      t.voice k = allocated n ∧ ∀ j : Slot, j ≠ k → t.voice j = s.voice j := by
  obtain ⟨t, ht, hk, hj, hr, hc, -, he⟩ :=
    exec_noteOn_voice (s := { s with edges := rest }) (chan := chan) (n := n) (vel := vel) h hsel
  exact ⟨t, (step_encode rfl hs).trans ht, ready_of_exec ht, he, hc, hr, hk, hj⟩

/-- The step at an edge that presents NOTE_OFF. -/
theorem step_noteOff_releases (h : Ready s) (hs : s.edges = encode (.noteOff chan n vel) :: rest) :
    ∃ t, step s = .next t ∧ Ready t ∧ t.edges = rest ∧ t.cfg = s.cfg ∧ t.rr = s.rr ∧
      ∀ j : Slot, t.voice j = releaseVoice n (s.voice j) := by
  obtain ⟨t, ht, hv, hr, hc, -, he⟩ :=
    exec_noteOff_voice (s := { s with edges := rest }) (chan := chan) (n := n) (vel := vel) h
  exact ⟨t, (step_encode rfl hs).trans ht, ready_of_exec ht, he, hc, hr, hv⟩

end Events

/-- Settles O15: RESET checks the configuration alone, and `State.resetWith` holds the reset values. -/
theorem resetCompletes : Obligations.ResetCompletes := by
  unfold Obligations.ResetCompletes
  intro s hl
  refine ⟨_, execReset_eq_next.mpr ⟨hl, rfl⟩, voice_resetWith s.cfg s.edges, rfl, rfl, rfl, rfl, ?_⟩
  rw [← BitVec.toNat_inj, outputs_activeCount]
  simp [soundingCount, Voice.reset]

/-- Settles O16: the reset values are those of `State.resetWith`, which reads only the configuration and the schedule
of the state it is given. -/
theorem stateResetIsTheStateAfterReset : Obligations.StateResetIsTheStateAfterReset := by
  unfold Obligations.StateResetIsTheStateAfterReset
  refine ⟨rfl, voice_resetWith _ _, fun s hc hs => ?_⟩
  have hl : legal s.cfg = true := by
    rw [hc]
    decide
  refine execReset_eq_next.mpr ⟨hl, ?_⟩
  rw [hc, hs]
  rfl

/-- Settles O17: `select` answers the lowest released slot and the cursor as it is. -/
theorem noteOnTakesLowestReleasedSlot : Obligations.NoteOnTakesLowestReleasedSlot := by
  unfold Obligations.NoteOnTakesLowestReleasedSlot
  intro s chan n vel k h hk hlow
  exact exec_noteOn_voice h (select_released hk hlow)

/-- Settles O18: `select` answers the cursor's slot and the cursor advanced. -/
theorem noteOnTakesCursorSlot : Obligations.NoteOnTakesCursorSlot := by
  unfold Obligations.NoteOnTakesCursorSlot
  intro s chan n vel k h hu hk
  have hcursor : s.rr.toNat ≤ 9 := by
    have := k.isLt
    omega
  have hslot : cursorSlot s.rr = k := Fin.ext ((cursorSlot_val hcursor).trans hk.symm)
  obtain ⟨t, ht, hvk, hvj, hr, hown⟩ := exec_noteOn_voice h (hslot ▸ select_unreleased hu)
  exact ⟨t, ht, hvk, hvj, by rw [hr, nextCursor_toNat], hown⟩

/-- Settles O22: a slot is released by the match of its note, whatever `active` is. -/
theorem noteOffReleasesEveryMatch : Obligations.NoteOffReleasesEveryMatch := by
  unfold Obligations.NoteOffReleasesEveryMatch
  intro s chan n vel h
  obtain ⟨t, ht, hv, hr, hown⟩ := exec_noteOff_voice h
  exact ⟨t, ht, fun j hj => (hv j).trans (releaseVoice_match hj),
    fun j hj => (hv j).trans (releaseVoice_noMatch hj), hr, hown⟩

/-- Settles O25: EVT_IGNORED makes the checks and goes on to the same state. -/
theorem evtIgnoredCompletes : Obligations.EvtIgnoredCompletes := by
  unfold Obligations.EvtIgnoredCompletes
  intro s kind bits h
  exact execEvtIgnored_eq_next.mpr ⟨h, rfl⟩

/-- Settles O30: each operation answers one state, whose updates leave the rest. -/
theorem accessMatrixFrame : Obligations.AccessMatrixFrame := by
  unfold Obligations.AccessMatrixFrame
  intro i s t h
  obtain ⟨-, hc, he, -⟩ := exec_own h
  refine ⟨hc, he, ?_⟩
  cases i with
  | noteOn _ _ _ =>
    obtain ⟨-, rfl⟩ := execNoteOn_eq_next.mp h
    exact ⟨rfl, fun j hj => voice_setVoice_other _ _ hj⟩
  | noteOff _ n _ =>
    obtain ⟨-, rfl⟩ := execNoteOff_eq_next.mp h
    refine ⟨rfl, rfl, fun j => ?_⟩
    rw [voice_mapVoices]
    exact ⟨rfl, fun hrel => releaseVoice_released.mpr (.inl hrel)⟩
  | evtIgnored _ _ =>
    obtain ⟨-, ht⟩ := execEvtIgnored_eq_next.mp h
    exact ht.symm
  | tick =>
    obtain ⟨-, rfl⟩ := execTick_eq_next.mp h
    refine ⟨rfl, rfl, fun j => ?_⟩
    rw [voice_mapVoices]
    exact tickVoice_frame _ _
  | reset =>
    obtain ⟨-, rfl⟩ := execReset_eq_next.mp h
    rfl

/-- Settles O23: the reset value of every note is 0, so all ten slots match, and slot 0 is then the lowest released. -/
theorem noteOffZeroAfterReset : Obligations.NoteOffZeroAfterReset := by
  unfold Obligations.NoteOffZeroAfterReset
  intro c chan chan' n vel vel' rest hl
  obtain ⟨t, ht, hready, he, -, hrr, hv⟩ := step_noteOff_releases (chan := chan) (n := 0) (vel := vel)
    (rest := encode (.noteOn chan' n vel') :: rest) (ready_resetWith hl) rfl
  have hvoice : ∀ j : Slot, t.voice j = { Voice.reset with released := true } := fun j => by
    rw [hv j, voice_resetWith]
    exact releaseVoice_match rfl
  have hreleased : (t.voice 0).released = true := by rw [hvoice]
  obtain ⟨u, hu, -, -, -, hrr', hv0, hvj⟩ :=
    step_noteOn_voice hready he (select_released hreleased fun j hj => absurd hj (Fin.not_lt_zero j))
  exact ⟨t, u, (steps_snoc (steps_zero _)).trans ht,
    fun j => ⟨congrArg Voice.released (hvoice j), congrArg Voice.active (hvoice j)⟩, hrr, hu,
    congrArg Voice.note hv0, congrArg Voice.active hv0, hrr'.trans hrr, hvj⟩

/-! ### Eleven NOTE_ONs from RESET (40_voice_events.md section 5, item 1) -/

/-- `m` NOTE_ONs after RESET: the slots below `m` hold the notes in order, and the cursor names slot `m`. -/
structure FilledUpTo (note : Fin 11 → Note) (m : Nat) (s : State) : Prop where
  cursor : s.rr.toNat = m % 10
  voice : ∀ j : Slot, s.voice j = if j.val < m then allocated (note j.castSucc) else Voice.reset

/-- The edges of eleven NOTE_ONs. -/
def noteOnEdges (chan : Fin 11 → BitVec 4) (note : Fin 11 → Note) (vel : Fin 11 → Byte) : List Edge :=
  List.ofFn fun m => encode (.noteOn (chan m) (note m) (vel m))

section Filling
variable {c : Config} {note : Fin 11 → Note} {chan : Fin 11 → BitVec 4} {vel : Fin 11 → Byte} {s : State} {m : Nat}
  {rest : List Edge}

theorem noteOnEdges_drop (hm : m < 11) : (noteOnEdges chan note vel).drop m =
    encode (.noteOn (chan ⟨m, hm⟩) (note ⟨m, hm⟩) (vel ⟨m, hm⟩)) :: (noteOnEdges chan note vel).drop (m + 1) := by
  have hlen : m < (noteOnEdges chan note vel).length := by simpa [noteOnEdges] using hm
  rw [List.drop_eq_getElem_cons hlen]
  congr 1
  exact List.getElem_ofFn hlen

theorem filledUpTo_resetWith (note : Fin 11 → Note) (c : Config) (es : List Edge) :
    FilledUpTo note 0 (State.resetWith c es) :=
  ⟨rfl, fun j => by simp⟩

theorem FilledUpTo.unreleased (h : FilledUpTo note m s) (j : Slot) : (s.voice j).released = false := by
  rw [h.voice j]
  split <;> rfl

theorem FilledUpTo.cursorSlot_val (h : FilledUpTo note m s) : (cursorSlot s.rr).val = m % 10 := by
  rw [← h.cursor]
  exact Machine.cursorSlot_val (by have := h.cursor; omega)

/-- A slot sounds exactly if it is below the filling. -/
theorem FilledUpTo.active_iff (h : FilledUpTo note m s) (j : Slot) : (s.voice j).active = true ↔ j.val < m := by
  rw [h.voice j]
  split
  · next hj => exact iff_of_true rfl hj
  · next hj => exact iff_of_false Bool.false_ne_true hj

theorem FilledUpTo.soundingCount_eq (h : FilledUpTo note m s) : soundingCount s = min m 10 := by
  simp only [soundingCount, h.active_iff, Fin.card_filter_val_lt, min_comm]

/-- With no slot released, NOTE_ON takes the cursor's slot, which past the tenth note is slot 0 again. -/
theorem FilledUpTo.step (h : FilledUpTo note m s) (hm : m < 11) (hs : Ready s)
    (he : s.edges = (noteOnEdges chan note vel).drop m ++ rest) :
    ∃ t, Machine.step s = .next t ∧ Ready t ∧ t.edges = (noteOnEdges chan note vel).drop (m + 1) ++ rest ∧
      t.rr.toNat = (m + 1) % 10 ∧
      ∀ j : Slot, t.voice j = if j.val = m % 10 then allocated (note ⟨m, hm⟩) else s.voice j := by
  rw [noteOnEdges_drop hm] at he
  obtain ⟨t, ht, hready, hedges, -, hrr, hk, hj⟩ := step_noteOn_voice hs he (select_unreleased h.unreleased)
  refine ⟨t, ht, hready, hedges, ?_, fun j => ?_⟩
  · rw [hrr, nextCursor_toNat, h.cursor, Nat.mod_add_mod]
  · by_cases hjm : j.val = m % 10
    · have : j = cursorSlot s.rr := Fin.ext (hjm.trans h.cursorSlot_val.symm)
      rw [if_pos hjm, this, hk]
    · rw [if_neg hjm]
      exact hj j fun hjk => hjm (hjk ▸ h.cursorSlot_val)

/-- The first ten NOTE_ONs fill the slots in order. -/
theorem steps_fill (hl : legal c = true) (hm : m ≤ 10) :
    ∃ t, steps m (State.resetWith c (noteOnEdges chan note vel ++ rest)) = .next t ∧ Ready t ∧
      t.edges = (noteOnEdges chan note vel).drop m ++ rest ∧ FilledUpTo note m t := by
  induction m with
  | zero => exact ⟨_, rfl, ready_resetWith hl, rfl, filledUpTo_resetWith note c _⟩
  | succ m ih =>
    obtain ⟨t, ht, hready, hedges, hfill⟩ := ih (by omega)
    obtain ⟨u, hu, hready', hedges', hrr, hv⟩ := hfill.step (by omega) hready hedges
    refine ⟨u, (steps_snoc ht).trans hu, hready', hedges', hrr, fun j => ?_⟩
    rw [hv j, hfill.voice j, Nat.mod_eq_of_lt (by omega)]
    rcases lt_trichotomy j.val m with hj | rfl | hj
    · rw [if_neg hj.ne, if_pos hj, if_pos (by omega)]
    · rw [if_pos rfl, if_pos (by omega)]
      rfl
    · rw [if_neg hj.ne', if_neg (by omega), if_neg (by omega)]

/-- The eleventh takes slot 0 and leaves the cursor at 1. -/
theorem steps_eleven (hl : legal c = true) :
    ∃ t, steps 11 (State.resetWith c (noteOnEdges chan note vel ++ rest)) = .next t ∧ t.rr = 1 ∧
      t.voice 0 = allocated (note 10) ∧ ∀ j : Slot, j ≠ 0 → t.voice j = allocated (note j.castSucc) := by
  obtain ⟨t, ht, hready, hedges, hfill⟩ := steps_fill (note := note) (chan := chan) (vel := vel) (rest := rest) hl le_rfl
  obtain ⟨u, hu, -, -, hrr, hv⟩ := hfill.step (by omega) hready hedges
  refine ⟨u, (steps_snoc ht).trans hu, BitVec.eq_of_toNat_eq hrr, hv 0, fun j hj => ?_⟩
  have hval : j.val ≠ 10 % 10 := fun h0 => hj (Fin.ext h0)
  rw [hv j, if_neg hval, hfill.voice j, if_pos j.isLt]

end Filling

/-- Settles O21: ten NOTE_ONs fill the slots, so the count goes up one by one; the eleventh overwrites a sounding slot. -/
theorem eleventhNoteOnOverwritesSlotZero : Obligations.EleventhNoteOnOverwritesSlotZero := by
  unfold Obligations.EleventhNoteOnOverwritesSlotZero
  intro c chan note vel rest hl s
  obtain ⟨u, hu, hrr, hv0, hvj⟩ := steps_eleven (note := note) (chan := chan) (vel := vel) (rest := rest) hl
  have hvoice : ∀ j : Slot, ∃ n, u.voice j = allocated n := fun j => by
    by_cases hj : j = 0
    · exact ⟨_, hj ▸ hv0⟩
    · exact ⟨_, hvj j hj⟩
  have hactive : ∀ j : Slot, (u.voice j).active = true := fun j => by
    obtain ⟨n, hn⟩ := hvoice j
    exact congrArg Voice.active hn
  refine ⟨fun m hm => ?count, u, hu, congrArg Voice.note hv0, fun j hj => congrArg Voice.note (hvj j hj),
    fun j => ⟨hactive j, ?freq⟩, hrr⟩
  case count =>
    rcases hm.lt_or_eq with hlt | rfl
    · obtain ⟨t, ht, -, -, hfill⟩ :=
        steps_fill (note := note) (chan := chan) (vel := vel) (rest := rest) hl (Nat.le_of_lt_succ hlt)
      exact ⟨t, ht, by rw [outputs_activeCount, hfill.soundingCount_eq]⟩
    · refine ⟨u, hu, ?_⟩
      rw [outputs_activeCount]
      simp [soundingCount, hactive]
  case freq =>
    obtain ⟨n, hn⟩ := hvoice j
    rw [hn]
    rfl

end Sys2Proof.Machine

/-! PROOFS. The invariant of the envelope: slot by slot, then for every operation, run of operations, step and reachable
state (10_state.md section 6); and the sessions of a host (70_reset_and_hazards.md R152, R153). -/

namespace Sys2Proof.Machine

/-! ### `EnvelopeOk` is kept slot by slot -/

section Slot
variable {c : Config} {x : Voice} {n : Note}

/-- The lower bound of 10_state.md R22 is negative. -/
theorem decayStep_add_releaseStep_pos (hl : legal c = true) : 0 < c.decayStep.toInt + c.releaseStep.toInt := by
  obtain ⟨-, -, h1, h2, -⟩ := legal_iff.mp hl
  omega

theorem envelopeOk_reset (hl : legal c = true) : EnvelopeOk c Voice.reset where
  lower := neg_nonpos.mpr (decayStep_add_releaseStep_pos hl).le
  origin := .inl ⟨rfl, rfl, rfl, rfl, rfl⟩
  ramp := fun ha => absurd ha Bool.false_ne_true
  done := fun _ _ => .inl rfl

theorem envelopeOk_allocated (hl : legal c = true) (n : Note) : EnvelopeOk c (allocated n) where
  lower := neg_nonpos.mpr (decayStep_add_releaseStep_pos hl).le
  origin := .inr rfl
  ramp := fun _ _ _ => by simp [allocated]
  done := fun hi => absurd hi.symm Bool.false_ne_true

/-- NOTE_OFF keeps it: a slot that is unreleased afterwards is as it was (40_voice_events.md R93). -/
theorem envelopeOk_releaseVoice (n : Note) (h : EnvelopeOk c x) : EnvelopeOk c (releaseVoice n x) := by
  by_cases hn : x.note = n
  · rw [releaseVoice_match hn]
    exact ⟨h.lower, h.origin, fun _ hr => absurd hr (by simp), fun _ hr => absurd hr (by simp)⟩
  · rwa [releaseVoice_noMatch hn]

/-- A sounding slot has been allocated: `freq` holds FREQ(note) (10_state.md R28). -/
theorem EnvelopeOk.freq_eq (h : EnvelopeOk c x) (ha : x.active = true) : x.freq = freqOf x.note := by
  rcases h.origin with ⟨-, -, -, -, hi⟩ | hf
  · exact absurd (ha.symm.trans hi) (by simp)
  · exact hf

/-- The attack branch puts the slot on the ramp (41_envelope_tick.md R111). -/
theorem envelopeOk_attackVoice (hl : legal c = true) (h : EnvelopeOk c x) (ha : x.active = true)
    (hk : inAttack c x = true) : EnvelopeOk c (attackVoice c x) where
  lower := by
    have := decayStep_add_releaseStep_pos hl
    rw [attackVoice_amp hk]
    omega
  origin := .inr (h.freq_eq ha)
  ramp := fun _ _ _ => by rw [attackVoice_amp hk, attackVoice_acnt hl hk, Nat.add_sub_cancel]
  done := fun hi => absurd (ha.symm.trans hi) (by simp)

/-- The decay branch goes at most one decrement below zero, and ends an unreleased voice only past its window
(10_state.md R22, 41_envelope_tick.md R114). -/
theorem envelopeOk_decayVoice (hl : legal c = true) (hx : VoiceOk c x) (h : EnvelopeOk c x) (ha : x.active = true)
    (hk : inAttack c x = false) : EnvelopeOk c (decayVoice c x) where
  lower := by
    rw [decayVoice_amp hl hx ha]
    obtain ⟨-, -, hb, -⟩ := hx
    obtain ⟨h0, -⟩ := hb ha
    obtain ⟨-, -, -, hd⟩ := decrement_bounds hl x.released
    omega
  origin := .inr (h.freq_eq ha)
  ramp := fun _ hr hw => absurd ⟨hw, hr⟩ (inAttack_eq_false_iff.mp hk)
  done := fun _ hr => .inr (not_lt.mp fun hw => inAttack_eq_false_iff.mp hk ⟨hw, hr⟩)

theorem envelopeOk_tickVoice (hl : legal c = true) (hx : VoiceOk c x) (h : EnvelopeOk c x) :
    EnvelopeOk c (tickVoice c x) := by
  cases ha : x.active with
  | false => rwa [tickVoice_inactive ha]
  | true =>
    cases hk : inAttack c x with
    | true =>
      rw [tickVoice_attack ha hk]
      exact envelopeOk_attackVoice hl h ha hk
    | false =>
      rw [tickVoice_decay ha hk]
      exact envelopeOk_decayVoice hl hx h ha hk

end Slot

/-! ### The invariant -/

section Invariant
variable {s t : State} {is : List Instr}

theorem envelopeInv_resetWith {c : Config} (es : List Edge) (hl : legal c = true) :
    EnvelopeInv (State.resetWith c es) :=
  ⟨ready_resetWith hl, fun i => by
    rw [voice_resetWith]
    exact envelopeOk_reset hl⟩

/-- Every operation keeps the invariant. -/
theorem exec_keepsInv {i : Instr} (h : EnvelopeInv s) (hx : exec i s = .next t) : EnvelopeInv t := by
  obtain ⟨⟨hl, hready⟩, hv⟩ := h
  refine ⟨ready_of_exec hx, fun j => ?_⟩
  cases i with
  | noteOn _ n _ =>
    obtain ⟨-, rfl⟩ := execNoteOn_eq_next.mp hx
    rw [setCursor_voice]
    by_cases hj : j = (select s).1
    · rw [hj, voice_setVoice_same]
      exact envelopeOk_allocated hl n
    · rw [voice_setVoice_other _ _ hj]
      exact hv j
  | noteOff _ n _ =>
    obtain ⟨-, rfl⟩ := execNoteOff_eq_next.mp hx
    rw [voice_mapVoices]
    exact envelopeOk_releaseVoice n (hv j)
  | evtIgnored _ _ =>
    obtain ⟨-, rfl⟩ := execEvtIgnored_eq_next.mp hx
    exact hv j
  | tick =>
    obtain ⟨⟨-, -, hc⟩, rfl⟩ := execTick_eq_next.mp hx
    rw [voice_mapVoices]
    exact envelopeOk_tickVoice hl ((consistent_iff.mp hc).2 j) (hv j)
  | reset =>
    obtain ⟨-, rfl⟩ := execReset_eq_next.mp hx
    exact (envelopeInv_resetWith s.edges hl).2 j

theorem runOps_keepsInv (h : EnvelopeInv s) (hrun : runOps is s = .next t) : EnvelopeInv t :=
  runOps_keeps exec_keepsInv h hrun

theorem step_keepsInv (h : EnvelopeInv s) (hstep : step s = .next t) : EnvelopeInv t := by
  obtain ⟨is, hrun⟩ := step_eq_next hstep
  exact runOps_keepsInv (s := edgeTaken s) h hrun

/-- The invariant holds of every reachable state. -/
theorem Reachable.envelopeInv (h : Reachable s) : EnvelopeInv s := by
  induction h with
  | reset c es hl => exact envelopeInv_resetWith es hl
  | step u v _ hstep ih => exact step_keepsInv ih hstep

end Invariant

/-- Settles O35: an edge runs operations, and each keeps the invariant. -/
theorem stepKeepsInvariant : Obligations.StepKeepsInvariant := by
  unfold Obligations.StepKeepsInvariant
  intro s t h hstep
  exact step_keepsInv h hstep

/-- Settles O34, slot by slot. -/
theorem resetMeetsInvariant : Obligations.ResetMeetsInvariant := by
  unfold Obligations.ResetMeetsInvariant
  intro c edges hl
  exact envelopeInv_resetWith edges hl

/-- `ceil(SR / 10)` of R110 over the rationals is the model's `attackTicks`. -/
theorem ceil_sampleRate_div_ten (c : Config) : ⌈(c.sampleRate : ℚ) / 10⌉₊ = attackTicks c := by
  refine eq_of_forall_lt_iff fun k => ?_
  rw [Nat.lt_ceil, lt_attackTicks_iff, lt_div_iff₀ (by norm_num), mul_comm]
  exact_mod_cast Iff.rfl

/-- Settles O36: a reachable state meets the invariant, whose parts these bounds are. -/
theorem reachableStatesMeetTheBounds : Obligations.ReachableStatesMeetTheBounds := by
  unfold Obligations.ReachableStatesMeetTheBounds
  intro s h
  obtain ⟨⟨hl, -, hc⟩, hv⟩ := h.envelopeInv
  obtain ⟨hr, hok⟩ := consistent_iff.mp hc
  refine ⟨hr, by rw [outputs_activeCount]; exact soundingCount_le s, fun j => ?_⟩
  obtain ⟨hd, hn, ha, hi⟩ := hok j
  refine ⟨hd, by rwa [ceil_sampleRate_div_ten], fun h1 => (ha h1).1, hi, (hv j).lower, ?_⟩
  cases hact : (s.voice j).active with
  | true => exact (ha hact).2
  | false => exact (hi hact).trans (by norm_num)

/-- Settles O37: a reachable state is ready, whatever schedule it is given, and steps go on from ready states. -/
theorem reachableStatesNeverStop : Obligations.ReachableStatesNeverStop := by
  unfold Obligations.ReachableStatesNeverStop
  intro s edges k h
  have hready : Ready { s with edges := edges } := h.envelopeInv.1
  obtain ⟨t, ht, -⟩ := steps_ready k hready
  exact ⟨t, ht⟩

/-! ### Sessions (70_reset_and_hazards.md R152, R153) -/

/-- Holding `rst` for one edge or for many leaves the same state. -/
theorem runOps_resets (holds : Nat) {s : State} (hl : legal s.cfg = true) :
    runOps (List.replicate (holds + 1) .reset) s = .next (State.resetWith s.cfg s.edges) := by
  have hx : ∀ u : State, u.cfg = s.cfg → u.edges = s.edges → exec .reset u = .next (State.resetWith s.cfg s.edges) :=
    fun u hc he => execReset_eq_next.mpr ⟨hc ▸ hl, by rw [hc, he]⟩
  induction holds with
  | zero => rw [List.replicate_one, runOps_one, hx s rfl rfl]
  | succ holds ih =>
    rw [List.replicate_succ', runOps_append, ih, andThen_next, runOps_one]
    exact hx _ rfl rfl

theorem sessionEdges_present (holds : Nat) (periods : List Period) :
    ∀ e ∈ sessionEdges holds periods, decodeEdge e ≠ [] := by
  intro e he
  rcases List.mem_append.mp he with hrst | hp
  · rw [List.eq_of_mem_replicate hrst]
    simp
  · obtain ⟨p, -, hep⟩ := List.mem_flatMap.mp hp
    exact periodEdges_present p.events p.shared e hep

/-- A session presents its resets and then the operations of its periods. -/
theorem flatMap_sessionEdges (holds : Nat) (periods : List Period) :
    (sessionEdges holds periods).flatMap decodeEdge =
      List.replicate (holds + 1) .reset ++ periods.flatMap periodOps := by
  have hperiod : ∀ p : Period, (periodEdges p.events p.shared).flatMap decodeEdge = periodOps p :=
    fun p => flatMap_periodEdges p.events p.shared
  simp only [sessionEdges, List.flatMap_append, List.flatMap_assoc, hperiod, List.flatMap_replicate,
    decodeEdge_rstEdge, List.flatten_replicate_singleton]

/-- Settles O47: the session is a run of operations whose first RESET needs no more than a legal configuration; the
rest goes on from there and keeps the invariant. -/
theorem sessionRunsFromPowerOn : Obligations.SessionRunsFromPowerOn := by
  unfold Obligations.SessionRunsFromPowerOn
  intro s holds periods hl hs
  obtain ⟨t, ht, -⟩ := runOps_ready (periods.flatMap periodOps) (ready_resetWith (es := []) hl)
  have hsession : steps s.edges.length s = runOps (periods.flatMap periodOps) (State.resetWith s.cfg []) := by
    rw [hs, steps_eq_runOps (rest := []) (sessionEdges_present holds periods) (by rw [hs, List.append_nil]),
      flatMap_sessionEdges, runOps_append, runOps_resets (s := { s with edges := [] }) holds hl, andThen_next]
  exact ⟨t, hsession.trans ht, runOps_edges ht, runOps_keepsInv (envelopeInv_resetWith [] hl) ht, ht⟩

end Sys2Proof.Machine

/-! PROOFS. TICK from a ready state: each branch on one slot, in the numbers of the spec (41_envelope_tick.md sections 1
and 2). -/

namespace Sys2Proof.Machine

section Ramp
variable {c : Config}

/-- The model's ramp is the rational floor of R111. -/
theorem floor_ramp (c : Config) (k : Nat) :
    ⌊(20 * (k : ℚ) * 2 ^ 28) / (c.sampleRate : ℚ)⌋₊ = attackCode c k := by
  have hcast : 20 * (k : ℚ) * 2 ^ 28 = ((2 ^ 28 * (20 * k) : ℕ) : ℚ) := by
    push_cast
    ring
  rw [hcast, Nat.floor_div_eq_div, attackCode]

theorem intFloor_ramp (c : Config) (k : Nat) :
    ⌊(20 * (k : ℚ) * 2 ^ 28) / (c.sampleRate : ℚ)⌋ = attackCode c k := by
  rw [← floor_ramp, Int.natCast_floor_eq_floor (by positivity)]

/-- Each count raises the ramp: SR is at most 20 * 2^28 (00_scope.md R11). -/
theorem attackCode_lt_succ (hl : legal c = true) (k : Nat) : attackCode c k < attackCode c (k + 1) := by
  obtain ⟨h1, h2, -⟩ := legal_iff.mp hl
  have hstep : 2 ^ 28 * (20 * k) + c.sampleRate ≤ 2 ^ 28 * (20 * (k + 1)) := by omega
  calc attackCode c k < 2 ^ 28 * (20 * k) / c.sampleRate + 1 := Nat.lt_succ_self _
    _ = (2 ^ 28 * (20 * k) + c.sampleRate) / c.sampleRate := (Nat.add_div_right _ h1).symm
    _ ≤ attackCode c (k + 1) := Nat.div_le_div_right hstep

theorem lt_attackCode_iff (hl : legal c = true) (m k : Nat) :
    m < attackCode c k ↔ (m + 1) * c.sampleRate ≤ 2 ^ 28 * (20 * k) := by
  obtain ⟨h1, -⟩ := legal_iff.mp hl
  rw [← Nat.succ_le_iff, attackCode, Nat.le_div_iff_mul_le h1]

/-- The attack window holds at least one tick. -/
theorem attackTicks_pos (hl : legal c = true) : 0 < attackTicks c := by
  obtain ⟨h1, -⟩ := legal_iff.mp hl
  rw [lt_attackTicks_iff]
  omega

end Ramp

/-- An unreleased voice after `k` attack ticks (R110, R111). -/
structure OnRamp (c : Config) (k : Nat) (x : Voice) : Prop where
  active : x.active = true
  unreleased : x.released = false
  count : x.acnt.toNat = k
  ramp : 0 < k → x.amp.toInt = attackCode c (k - 1)

section Slot
variable {c : Config} {x : Voice} {k : Nat}

/-- A tick inside the window puts an unreleased voice on the ramp, wherever its amplitude was. -/
theorem onRamp_tickVoice (hl : legal c = true) (ha : x.active = true) (hr : x.released = false)
    (hw : 10 * x.acnt.toNat < c.sampleRate) : OnRamp c (x.acnt.toNat + 1) (tickVoice c x) := by
  have hk : inAttack c x = true := inAttack_iff.mpr ⟨hw, hr⟩
  rw [tickVoice_attack ha hk]
  exact ⟨ha, hr, attackVoice_acnt hl hk, fun _ => attackVoice_amp hk⟩

/-- A sounding, unreleased voice with counter 0 begins its ramp. -/
theorem onRamp_zero (ha : x.active = true) (hr : x.released = false) (hn : x.acnt = 0) : OnRamp c 0 x :=
  ⟨ha, hr, congrArg BitVec.toNat hn, fun h => absurd h (lt_irrefl 0)⟩

theorem OnRamp.tick (h : OnRamp c k x) (hl : legal c = true) (hk : k < attackTicks c) :
    OnRamp c (k + 1) (tickVoice c x) := by
  obtain rfl := h.count
  exact onRamp_tickVoice hl h.active h.unreleased (lt_attackTicks_iff.mp hk)

/-- Past its window an unreleased voice decays. -/
theorem OnRamp.past (h : OnRamp c k x) (hk : attackTicks c ≤ k) : inAttack c x = false := by
  rw [inAttack_eq_false_iff, h.count, ← lt_attackTicks_iff]
  omega

/-- After a tick of the decay branch a slot sounds exactly if its amplitude is positive (R114). -/
theorem tickVoice_decay_active (hl : legal c = true) (hx : VoiceOk c x) (ha : x.active = true)
    (hk : inAttack c x = false) : (tickVoice c x).active = true ↔ 0 < (tickVoice c x).amp.toInt := by
  rw [tickVoice_decay_amp hl hx ha hk, tickVoice_decay ha hk]
  exact decayVoice_active

end Slot

/-- TICK leaves the cursor and the model's own fields, and writes every slot by `tickVoice`. -/
theorem exec_tick_frame {s : State} (h : Ready s) : ∃ t, exec .tick s = .next t ∧ t.rr = s.rr ∧ KeepsOwn s t ∧
    ∀ j : Slot, t.voice j = tickVoice s.cfg (s.voice j) := by
  obtain ⟨t, ht, hv⟩ := exec_tick_voice h
  exact ⟨t, ht, exec_rr ht (by simp) (by simp), exec_keepsOwn h ht, hv⟩

/-- Every slot of a ready state meets R36. -/
theorem Ready.voiceOk {s : State} (h : Ready s) (j : Slot) : VoiceOk s.cfg (s.voice j) := by
  obtain ⟨-, -, hc⟩ := h
  exact (consistent_iff.mp hc).2 j

/-- Settles O26: the attack branch takes the model's ramp, which is the rational floor. -/
theorem tickAttackBranch : Obligations.TickAttackBranch := by
  unfold Obligations.TickAttackBranch
  intro s h
  obtain ⟨t, ht, hrr, hown, hv⟩ := exec_tick_frame h
  refine ⟨t, ht, hrr, hown, fun j ha hr hw => ?_⟩
  have hramp := onRamp_tickVoice h.1 ha hr hw
  have htick := tickVoice_attack ha (inAttack_iff.mpr ⟨hw, hr⟩)
  rw [hv j]
  refine ⟨?_, hramp.count, ?_⟩
  · rw [hramp.ramp (Nat.succ_pos _), intFloor_ramp, Nat.add_sub_cancel]
  · rw [htick]
    rfl

/-- Settles O28: the branch is chosen by `active` and `in_attack`, and each writes the fields its definition names. -/
theorem tickDeactivation : Obligations.TickDeactivation := by
  unfold Obligations.TickDeactivation
  intro s h
  obtain ⟨t, ht, hv⟩ := exec_tick_voice h
  refine ⟨t, ht, fun j => ?_⟩
  rw [hv j]
  refine ⟨fun ha hdecay => ?decay, fun ha hw hr => (onRamp_tickVoice h.1 ha hr hw).active, fun hi => ?inactive⟩
  case decay =>
    have hk := inAttack_eq_false_iff.mpr hdecay
    refine ⟨tickVoice_decay_active h.1 (h.voiceOk j) ha hk, ?_⟩
    rw [tickVoice_decay ha hk]
    rfl
  case inactive => exact tickVoice_inactive hi

/-- Settles O29: a slot after TICK is `tickVoice` of the slot before it. -/
theorem tickSlotsAreIndependent : Obligations.TickSlotsAreIndependent := by
  unfold Obligations.TickSlotsAreIndependent
  intro s s' j j' h h' hc hj
  obtain ⟨t, ht, hv⟩ := exec_tick_voice h
  obtain ⟨t', ht', hv'⟩ := exec_tick_voice h'
  exact ⟨t, t', ht, ht', by rw [hv, hv', hc, hj]⟩

/-- Settles O39: both ticks are on the ramp, one count apart. -/
theorem attackStrictlyIncreases : Obligations.AttackStrictlyIncreases := by
  unfold Obligations.AttackStrictlyIncreases
  intro s j rest h ha hr hw hs
  obtain ⟨t, ht, hready, hedges, hc, -, hv⟩ := step_tickEdge h hs
  obtain ⟨u, hu, -, -, -, -, hv'⟩ := step_tickEdge hready hedges
  have hfirst := onRamp_tickVoice h.1 ha hr (by omega)
  have hsecond := hfirst.tick h.1 (lt_attackTicks_iff.mpr hw)
  refine ⟨t, u, ht, hu, ?_, ?_⟩
  · rw [hv' j, hc, hv j, hfirst.ramp (Nat.succ_pos _), hsecond.ramp (Nat.succ_pos _)]
    exact_mod_cast attackCode_lt_succ h.1 _
  · rw [hv' j, hc, hv j]
    exact hsecond.active

/-- Settles O40: the decrement is at least DECAY_STEP, which is positive. -/
theorem decayStrictlyDecreases : Obligations.DecayStrictlyDecreases := by
  unfold Obligations.DecayStrictlyDecreases
  intro s j h ha hdecay
  obtain ⟨t, ht, hv⟩ := exec_tick_voice h
  have hk := inAttack_eq_false_iff.mpr hdecay
  have hamp := tickVoice_decay_amp h.1 (h.voiceOk j) ha hk
  have hactive := tickVoice_decay_active h.1 (h.voiceOk j) ha hk
  obtain ⟨hstep, hpos, -⟩ := decrement_bounds h.1 (s.voice j).released
  refine ⟨t, ht, ?_⟩
  rw [hv j]
  refine ⟨by omega, by omega, ?_⟩
  rw [← not_lt, ← hactive, Bool.not_eq_true]

/-- Settles O43: the ramp passes 2^28 where its division does; at SR = 44100 the bound falls between 2205 and 2206. -/
theorem attackExceedsOne : Obligations.AttackExceedsOne := by
  unfold Obligations.AttackExceedsOne
  intro c count hl
  refine ⟨lt_attackCode_iff hl _ _, fun hsr => ?_⟩
  rw [lt_attackCode_iff hl, hsr]
  omega

end Sys2Proof.Machine

/-! PROOFS. Runs of ticks: a voice through its attack and its decay (41_envelope_tick.md section 4), and the sequences
of events and ticks the spec spells out (40_voice_events.md section 5, 70_reset_and_hazards.md section 4). -/

namespace Sys2Proof.Machine

/-- `k` ticks write every slot by `k` rounds of `tickVoice`, and nothing else but the schedule. -/
theorem steps_ticks (k : Nat) {s : State} {rest : List Edge} (h : Ready s)
    (hs : s.edges = List.replicate k tickEdge ++ rest) :
    ∃ t, steps k s = .next t ∧ Ready t ∧ t.edges = rest ∧ t.cfg = s.cfg ∧ t.rr = s.rr ∧
      ∀ j : Slot, t.voice j = (tickVoice s.cfg)^[k] (s.voice j) := by
  induction k generalizing s with
  | zero => exact ⟨s, rfl, h, hs, rfl, rfl, fun _ => rfl⟩
  | succ k ih =>
    obtain ⟨u, hu, hready, hedges, hc, hrr, hv⟩ := step_tickEdge (rest := List.replicate k tickEdge ++ rest) h hs
    obtain ⟨t, ht, hready', hedges', hc', hrr', hv'⟩ := ih hready hedges
    refine ⟨t, ?_, hready', hedges', hc'.trans hc, hrr'.trans hrr, fun j => ?_⟩
    · rw [steps_succ, hu, andThen_next, ht]
    · rw [hv' j, hc, hv j, Function.iterate_succ_apply]

/-- A voice `m` ticks after `x`, which was in its decay branch and loses `d` a tick (R113, R114). -/
structure DecayedFrom (x : Voice) (d : Int) (m : Nat) (y : Voice) : Prop where
  acnt : y.acnt = x.acnt
  released : y.released = x.released
  active_iff : y.active = true ↔ m = 0 ∨ m * d < x.amp.toInt
  amp : y.active = true → y.amp.toInt = x.amp.toInt - m * d

section Slot
variable {c : Config} {x y : Voice} {k m : Nat}

theorem voiceOk_iterate (hl : legal c = true) (hx : VoiceOk c x) (k : Nat) : VoiceOk c ((tickVoice c)^[k] x) := by
  induction k with
  | zero => exact hx
  | succ k ih =>
    rw [Function.iterate_succ_apply']
    exact voiceOk_tickVoice hl ih

/-- No number of ticks writes the note or the `released` flag (10_state.md R37). -/
theorem iterate_tickVoice_frame (c : Config) (x : Voice) (k : Nat) :
    ((tickVoice c)^[k] x).note = x.note ∧ ((tickVoice c)^[k] x).released = x.released := by
  induction k with
  | zero => exact ⟨rfl, rfl⟩
  | succ k ih =>
    obtain ⟨hn, -, -, hr⟩ := tickVoice_frame c ((tickVoice c)^[k] x)
    rw [Function.iterate_succ_apply', hn, hr]
    exact ih

/-- An unreleased voice climbs the ramp for `attackTicks` ticks. -/
theorem OnRamp.iterate (h : OnRamp c 0 x) (hl : legal c = true) (hk : k ≤ attackTicks c) :
    OnRamp c k ((tickVoice c)^[k] x) := by
  induction k with
  | zero => exact h
  | succ k ih =>
    rw [Function.iterate_succ_apply']
    exact (ih (by omega)).tick hl hk

/-- A decaying voice stays in its decay branch until its amplitude is used up, and then stays inactive. -/
theorem DecayedFrom.tick (h : DecayedFrom x (decrement c x.released) m y) (hl : legal c = true) (hy : VoiceOk c y)
    (hk : inAttack c x = false) : DecayedFrom x (decrement c x.released) (m + 1) (tickVoice c y) := by
  obtain ⟨-, hpos, -⟩ := decrement_bounds hl x.released
  have hsucc : ((m + 1 : ℕ) : ℤ) * decrement c x.released = m * decrement c x.released + decrement c x.released := by
    push_cast
    ring
  cases ha : y.active with
  | false =>
    have hspent : ¬ (m = 0 ∨ m * decrement c x.released < x.amp.toInt) :=
      fun hm => absurd (ha.symm.trans (h.active_iff.mpr hm)) (by simp)
    rw [tickVoice_inactive ha]
    refine ⟨h.acnt, h.released, iff_of_false (by simp [ha]) ?_, fun ht => absurd (ha.symm.trans ht) (by simp)⟩
    rw [hsucc]
    omega
  | true =>
    have hky : inAttack c y = false := by
      rwa [inAttack_eq_false_iff, h.acnt, h.released, ← inAttack_eq_false_iff]
    have hamp : (tickVoice c y).amp.toInt = x.amp.toInt - (m + 1 : ℕ) * decrement c x.released := by
      rw [tickVoice_decay_amp hl hy ha hky, h.amp ha, h.released, hsucc, sub_sub]
    obtain ⟨-, -, -, hr⟩ := tickVoice_frame c y
    refine ⟨?_, hr.trans h.released, ?_, fun _ => hamp⟩
    · rw [tickVoice_decay ha hky]
      exact h.acnt
    · rw [tickVoice_decay_active hl hy ha hky, hamp]
      omega

theorem decayedFrom_iterate (hl : legal c = true) (hx : VoiceOk c x) (ha : x.active = true)
    (hk : inAttack c x = false) (m : Nat) :
    DecayedFrom x (decrement c x.released) m ((tickVoice c)^[m] x) := by
  induction m with
  | zero => exact ⟨rfl, rfl, iff_of_true ha (.inl rfl), fun _ => by simp⟩
  | succ m ih =>
    rw [Function.iterate_succ_apply']
    exact ih.tick hl (voiceOk_iterate hl hx m) hk

/-- Amplitude `a` lasts `max 1 (ceil(a / d))` ticks at `d` a tick (R118). -/
theorem lasts_iff {a d : Int} (hd : 0 < d) : (m = 0 ∨ m * d < a) ↔ m < max 1 ⌈(a : ℚ) / (d : ℚ)⌉₊ := by
  have hd' : (0 : ℚ) < d := by exact_mod_cast hd
  rw [lt_max_iff, Nat.lt_one_iff, Nat.lt_ceil, lt_div_iff₀ hd']
  exact or_congr_right (by exact_mod_cast Iff.rfl)

/-- From its decay branch on, a voice sounds for the ticks its amplitude lasts. -/
theorem active_iterate_iff (hl : legal c = true) (hx : VoiceOk c x) (ha : x.active = true)
    (hk : inAttack c x = false) (m : Nat) : ((tickVoice c)^[m] x).active = true ↔
      m < max 1 ⌈(x.amp.toInt : ℚ) / (decrement c x.released : ℚ)⌉₊ := by
  obtain ⟨-, hpos, -⟩ := decrement_bounds hl x.released
  rw [(decayedFrom_iterate hl hx ha hk m).active_iff, lasts_iff hpos]

/-- Past its attack window an unreleased voice keeps its counter. -/
theorem OnRamp.acnt_iterate (h : OnRamp c 0 x) (hl : legal c = true) (hx : VoiceOk c x) (k : Nat) :
    ((tickVoice c)^[k] x).acnt.toNat = min k (attackTicks c) := by
  rcases le_total k (attackTicks c) with hk | hk
  · rw [(h.iterate hl hk).count, min_eq_left hk]
  · obtain ⟨m, rfl⟩ := Nat.exists_eq_add_of_le' hk
    have htop := h.iterate hl le_rfl
    have hdecay := decayedFrom_iterate hl (voiceOk_iterate hl hx _) htop.active (htop.past le_rfl) m
    rw [Function.iterate_add_apply, hdecay.acnt, htop.count, min_eq_right hk]

/-- An unreleased voice sounds through its attack, and then for the ticks the top of the ramp lasts. -/
theorem OnRamp.active_iterate_iff (h : OnRamp c 0 x) (hl : legal c = true) (hx : VoiceOk c x) (k : Nat) :
    ((tickVoice c)^[k] x).active = true ↔ k < attackTicks c +
      max 1 ⌈(attackCode c (attackTicks c - 1) : ℚ) / (c.decayStep.toInt : ℚ)⌉₊ := by
  rcases le_total k (attackTicks c) with hk | hk
  · exact iff_of_true (h.iterate hl hk).active
      (hk.trans_lt (Nat.lt_add_of_pos_right (Nat.zero_lt_one.trans_le (le_max_left 1 _))))
  · obtain ⟨m, rfl⟩ := Nat.exists_eq_add_of_le' hk
    have htop := h.iterate hl le_rfl
    rw [Function.iterate_add_apply,
      Machine.active_iterate_iff hl (voiceOk_iterate hl hx _) htop.active (htop.past le_rfl), htop.unreleased,
      decrement_unreleased, htop.ramp (attackTicks_pos hl), Int.cast_natCast, add_comm m, Nat.add_lt_add_iff_left]

end Slot

/-- Settles O44: an active, unreleased voice with counter 0 begins its ramp. -/
theorem attackTickCount : Obligations.AttackTickCount := by
  unfold Obligations.AttackTickCount
  intro s j k rest h ha hr hn hs
  obtain ⟨t, ht, -, -, -, -, hv⟩ := steps_ticks k h hs
  have hstart : OnRamp s.cfg 0 (s.voice j) := onRamp_zero ha hr hn
  exact ⟨t, ht, by rw [hv j, hstart.acnt_iterate h.1 (h.voiceOk j), ceil_sampleRate_div_ten]⟩

/-- Settles O41: the voice climbs to the top of the ramp, and decays from there. -/
theorem unreleasedLifetime : Obligations.UnreleasedLifetime := by
  unfold Obligations.UnreleasedLifetime
  rintro s j k A L rest h ha hr - hn rfl rfl hs
  obtain ⟨t, ht, -, -, -, -, hv⟩ := steps_ticks k h hs
  have hstart : OnRamp s.cfg 0 (s.voice j) := onRamp_zero ha hr hn
  refine ⟨t, ht, ?_⟩
  rw [ceil_sampleRate_div_ten, ← Nat.cast_pred (attackTicks_pos h.1), floor_ramp, hv j]
  exact hstart.active_iterate_iff h.1 (h.voiceOk j) k

/-- Settles O42: a released voice is in its decay branch, at both decrements. -/
theorem releasedLifetime : Obligations.ReleasedLifetime := by
  unfold Obligations.ReleasedLifetime
  intro s j k rest h ha hr hs
  obtain ⟨t, ht, -, -, -, -, hv⟩ := steps_ticks k h hs
  have hk : inAttack s.cfg (s.voice j) = false := inAttack_eq_false_iff.mpr (by simp [hr])
  refine ⟨t, ht, ?_⟩
  rw [hv j, active_iterate_iff h.1 (h.voiceOk j) ha hk, hr, decrement_released, Int.cast_add]

/-! ### Events and ticks -/

/-- The second tick of a voice leaves a non-zero amplitude, in the attack window or already past it (R155). -/
theorem amp_ne_zero_of_second_tick {c : Config} {x : Voice} (hl : legal c = true) (hx : VoiceOk c x)
    (h : OnRamp c 1 x) : (tickVoice c x).amp.toInt ≠ 0 := by
  have hstart : x.amp.toInt = 0 := by
    rw [h.ramp Nat.one_pos]
    simp
  rcases Nat.lt_or_ge 1 (attackTicks c) with hk | hk
  · have hrise : attackCode c 0 < attackCode c 1 := attackCode_lt_succ hl 0
    rw [(h.tick hl hk).ramp (by omega), Nat.add_sub_cancel]
    omega
  · obtain ⟨-, hpos, -⟩ := decrement_bounds hl x.released
    rw [tickVoice_decay_amp hl hx h.active (h.past hk)]
    omega

/-- The first tick of a voice released before it: it goes from amplitude 0 straight below (R155). -/
theorem tick_releasedAllocated {c : Config} (hl : legal c = true) (n : Note) :
    (tickVoice c (releaseVoice n (allocated n))).active = false ∧
      (tickVoice c (releaseVoice n (allocated n))).amp.toInt = -(c.decayStep.toInt + c.releaseStep.toInt) := by
  have hx : VoiceOk c (releaseVoice n (allocated n)) := voiceOk_releaseVoice n (voiceOk_allocated c n)
  have hr : (releaseVoice n (allocated n)).released = true := releaseVoice_released.mpr (.inr rfl)
  have hk : inAttack c (releaseVoice n (allocated n)) = false := inAttack_eq_false_iff.mpr (by simp [hr])
  have hamp : (tickVoice c (releaseVoice n (allocated n))).amp.toInt = -(c.decayStep.toInt + c.releaseStep.toInt) := by
    rw [tickVoice_decay_amp hl hx rfl hk, hr, decrement_released]
    exact zero_sub _
  have hpos := decayStep_add_releaseStep_pos hl
  refine ⟨?_, hamp⟩
  rw [← Bool.not_eq_true, tickVoice_decay_active hl hx rfl hk, hamp]
  omega

/-- Settles O45: a voice begins its ramp at NOTE_ON; a release before the first tick puts it in its decay branch. -/
theorem firstTicksOfAVoice : Obligations.FirstTicksOfAVoice := by
  unfold Obligations.FirstTicksOfAVoice
  intro s n chan chan' vel vel' rest h
  refine ⟨fun hs => ?kept, fun hs => ?released⟩
  case kept =>
    obtain ⟨a, ha, hra, hea, hca, -, hka, -⟩ := step_noteOn_voice h hs Prod.mk.eta.symm
    obtain ⟨t, ht, hrt, het, hct, -, hvt⟩ := step_tickEdge hra hea
    obtain ⟨u, hu, -, -, -, -, hvu⟩ := step_tickEdge hrt het
    have hfirst : OnRamp a.cfg 1 (t.voice (select s).1) := by
      rw [hvt, hka]
      exact (onRamp_zero rfl rfl rfl).tick hra.1 (attackTicks_pos hra.1)
    refine ⟨t, u, ?_, hu, ?_, BitVec.eq_of_toNat_eq hfirst.count, hfirst.active, fun h0 => ?_⟩
    · rw [steps_succ, ha, andThen_next, steps_snoc (steps_zero a), ht]
    · refine BitVec.eq_of_toInt_eq ?_
      rw [hfirst.ramp Nat.one_pos]
      simp
    · refine amp_ne_zero_of_second_tick (c := a.cfg) hra.1 (hct ▸ hrt.voiceOk _) hfirst ?_
      rw [← hct, ← hvu, h0]
      rfl
  case released =>
    obtain ⟨a, ha, hra, hea, hca, -, hka, -⟩ := step_noteOn_voice h hs Prod.mk.eta.symm
    obtain ⟨b, hb, hrb, heb, hcb, -, hvb⟩ := step_noteOff_releases hra hea
    obtain ⟨t, ht, -, -, -, -, hvt⟩ := step_tickEdge hrb heb
    refine ⟨t, ?_, ?_⟩
    · rw [steps_succ, ha, andThen_next, steps_succ, hb, andThen_next, steps_snoc (steps_zero b), ht]
    · rw [hvt, hvb, hka, ← hca, ← hcb]
      exact tick_releasedAllocated hrb.1 n

/-- Settles O24: the release marks that slot alone, ticks write no flag `released`, and so `select` answers it. -/
theorem releasedSlotIsReusedFirst : Obligations.ReleasedSlotIsReusedFirst := by
  unfold Obligations.ReleasedSlotIsReusedFirst
  intro s k n n' chan chan' vel vel' m rest h hu hk hother hs
  obtain ⟨a, ha, hra, hea, -, hrra, hva⟩ := step_noteOff_releases h hs
  obtain ⟨b, hb, hrb, heb, -, hrrb, hvb⟩ := steps_ticks m hra hea
  have hnote : ∀ j : Slot, (b.voice j).note = (s.voice j).note := fun j => by
    rw [hvb j, (iterate_tickVoice_frame _ _ _).1, hva j]
    rfl
  have hreleased : ∀ j : Slot, (b.voice j).released = true ↔ j = k := fun j => by
    rw [hvb j, (iterate_tickVoice_frame _ _ _).2, hva j, releaseVoice_released, hu j]
    constructor
    · rintro (hf | hn)
      · exact absurd hf Bool.false_ne_true
      · exact by_contra fun hjk => hother j hjk hn
    · rintro rfl
      exact .inr hk
  have hselect : select b = (k, b.rr) := select_released ((hreleased k).mpr rfl) fun j hj => by
    rw [← Bool.not_eq_true, hreleased j]
    exact hj.ne
  obtain ⟨t, ht, -, het, -, hrrt, hkt, hjt⟩ := step_noteOn_voice hrb heb hselect
  have hsteps : steps (m + 2) s = .next t := by
    rw [steps_succ, ha, andThen_next, steps_snoc hb, ht]
  refine ⟨t, hsteps, congrArg Voice.note hkt, congrArg Voice.freq hkt, congrArg Voice.amp hkt,
    congrArg Voice.active hkt, by rw [hrrt, hrrb, hrra], het, fun j => ?_⟩
  by_cases hj : j = k
  · rw [hj, hkt]
    exact ⟨rfl, fun hne => absurd rfl hne⟩
  · rw [hjt j hj]
    exact ⟨by rwa [← Bool.not_eq_true, hreleased j], fun _ => hnote j⟩

end Sys2Proof.Machine
